-- ==== Sys2Proof/Word.lean ====
section
/-!
DEFINITION. The machine's word types. Widths as spec/00_scope.md rule R6 fixes them; bit 0 is the least significant
bit and every value is unsigned (rule R8).
-/

namespace Sys2Proof

/-- A state, schedule or working word: `WORD` = 32 bits (R6). -/
abbrev Word := BitVec 32

/-- One byte of the message, of the input buffer or of a digest. -/
abbrev Byte := BitVec 8

/-- The byte counter and the length trailer: `LEN_BITS` = 64 bits (R6). -/
abbrev Length := BitVec 64

/-- A command word `{cmd_op, cmd_data}`: `CMD_BITS` = 10 bits (R6, R51). -/
abbrev CommandWord := BitVec 10

/-- The digest register and the output `dig_o`: 160 bits (R13, R25). -/
abbrev Digest := BitVec 160

end Sys2Proof
end

