-- ==== Sys2Proof/Syntax.lean ====
section
/-!
DEFINITION. The command set: one constructor per row of spec/opcode_table.json (spec/30_encoding.md rule R52).
-/

namespace Sys2Proof

/-- A host command with its 8-bit `data` field (R51). Only ABSORB uses the field; INIT, FINAL and FINALR carry it as
the reserved bits it is there, so that no bit of a command word is lost (R53). -/
inductive Instr where
  /-- `INIT`: create a fresh engine (R61). The field is reserved and ignored. -/
  | init (reserved : Byte)
  /-- `ABSORB d`: absorb the message byte `d` (R62). -/
  | absorb (d : Byte)
  /-- `FINAL`: finalize and consume the engine (R63). The field is reserved and ignored. -/
  | final (reserved : Byte)
  /-- `FINALR`: finalize and reset the engine (R64). The field is reserved and ignored. -/
  | finalr (reserved : Byte)
  deriving DecidableEq, Repr

end Sys2Proof
end

