-- ==== Sys2Proof/Decode.lean ====
section
/-!
DEFINITION. The command decoder and, after it, the encoder (spec/30_encoding.md rules R51 to R56).
-/

namespace Sys2Proof

/-! ### Decoding -/

/-- `op = word[9:8]` (R51). -/
def commandOp (w : CommandWord) : BitVec 2 := w.extractLsb' 8 2

/-- `data = word[7:0]` (R51). -/
def commandData (w : CommandWord) : Byte := w.extractLsb' 0 8

/-- The command that `op` selects, with its `data` field (R52). -/
def decodeFields (op : BitVec 2) (data : Byte) : Instr :=
  if op = 0b00 then .init data
  else if op = 0b01 then .absorb data
  else if op = 0b10 then .final data
  else .finalr data

/-- Decoding is total: each of the 1024 command words selects exactly one command (R54). -/
def decode (w : CommandWord) : Instr := decodeFields (commandOp w) (commandData w)

/-- Why a number is no command word. -/
inductive DecodeError where
  /-- The number does not fit the 10 wires of `cmd_op` and `cmd_data`: there are no longer forms (R51, R56). -/
  | widerThanCommandWord
  deriving DecidableEq, Repr

/-- Decode a number as a command word; one wider than 10 bits is refused by name (R51, R56). -/
def decodeNumber (w : Nat) : Except DecodeError Instr :=
  if w < 1024 then .ok (decode (BitVec.ofNat 10 w)) else .error .widerThanCommandWord

/-- The command the decoder reads from a row of spec/opcode_table.json whose bits are the low `nbits` of `w`. -/
def decodeTableWord (nbits w : Nat) : Option Instr :=
  match decodeNumber (w % 2 ^ nbits) with
  | .ok i => some i
  | .error _ => none

/-! ### Encoding -/

/-- The `op` field of a command (R52). -/
def Instr.op : Instr → BitVec 2
  | .init _ => 0b00
  | .absorb _ => 0b01
  | .final _ => 0b10
  | .finalr _ => 0b11

/-- The `data` field of a command (R53). -/
def Instr.data : Instr → Byte
  | .init reserved => reserved
  | .absorb d => d
  | .final reserved => reserved
  | .finalr reserved => reserved

/-- The command word `word = {cmd_op, cmd_data}` (R51). -/
def encode (i : Instr) : CommandWord := i.op ++ i.data

end Sys2Proof
end

