-- ==== Sys2Proof/Config.lean ====
section
/-!
DEFINITION. The fixed parameters of the hardware (spec/00_scope.md rule R6). Each is a constant and none is a model
argument (R7). The widths of R6 are the types of `Sys2Proof/Word.lean` and of `State`; the counts and offsets stand here.
The spec leaves the result of no command open, so there is no free value (`opaque`) here.
-/

namespace Sys2Proof

/-- `BLOCK_BYTES`: the bytes of one block, which are also the bytes of the input buffer (R6, R16). -/
abbrev Config.blockBytes : Nat := 64

/-- `ROUNDS`: the rounds of one compression (R6). -/
abbrev Config.rounds : Nat := 80

/-- The offset of the length trailer: `TRAILER_BYTES` = 8 bytes at block offsets 56..63 (R6, R40). -/
abbrev Config.trailerOffset : Nat := 56

/-- The largest fill-count at which the `0x80` byte still leaves room for the trailer (R66: overflow when `p > 55`). -/
abbrev Config.lastFillWithoutOverflow : Nat := 55

/-- The cycles one compression takes: 1 LOAD, 80 ROUND at `ROUNDS_PER_CYCLE` = 1, 1 ACCUM (R6, R125). -/
abbrev Config.compressionCycles : Nat := 1 + Config.rounds + 1

end Sys2Proof
end

