-- ==== Sys2Proof/Machine/Bits.lean ====
section
/-!
DEFINITION. Word operators and byte-order helpers (spec/00_scope.md rules R9 and R10).
-/

namespace Sys2Proof.Machine

/-- `rotl(x, n)` for `0 < n < 32`: the low 32 bits of `(x << n) OR (x >> (32 - n))` (R9). -/
def rotl (x : Word) (n : Nat) : Word := (x <<< n) ||| (x >>> (32 - n))

/-- `be32(b0, b1, b2, b3) = {b0, b1, b2, b3}`: the first byte is the most significant (R10). -/
def be32 (b0 b1 b2 b3 : Byte) : Word := b0 ++ b1 ++ b2 ++ b3

/-- `bytes_be32(x)`: the four bytes of a word, most significant first (R10). -/
def bytesBe32 (x : Word) : List Byte :=
  [x.extractLsb' 24 8, x.extractLsb' 16 8, x.extractLsb' 8 8, x.extractLsb' 0 8]

/-- `bytes_be64(v)`: the eight bytes of a length, most significant first (R10). -/
def bytesBe64 (v : Length) : List Byte :=
  [v.extractLsb' 56 8, v.extractLsb' 48 8, v.extractLsb' 40 8, v.extractLsb' 32 8,
   v.extractLsb' 24 8, v.extractLsb' 16 8, v.extractLsb' 8 8, v.extractLsb' 0 8]

/-- The `n` values `f 0, …, f (n - 1)` as a vector. -/
def tabulate {α : Type} (n : Nat) (f : Nat → α) : Vector α n :=
  ⟨((List.range n).map f).toArray, by simp⟩

end Sys2Proof.Machine
end

