-- ==== Sys2Proof/Machine/Compression.lean ====
section
/-!
DEFINITION. The compression transform as a pure function, and one cycle of its hardware form
(spec/41_compression.md rules R74 to R85; the constants of spec/10_state.md rules R15 and R32).
-/

namespace Sys2Proof.Machine

/-- The HashState `H0..H4` (R14). -/
structure HashState where
  h0 : Word
  h1 : Word
  h2 : Word
  h3 : Word
  h4 : Word
  deriving DecidableEq, Repr

/-- The working registers `a..e` (R19). -/
structure Working where
  a : Word
  b : Word
  c : Word
  d : Word
  e : Word
  deriving DecidableEq, Repr

/-- A block: 64 bytes consumed together by one compression (Glossary, R74). -/
abbrev Block := Vector Byte 64

/-- The initialization vector (R15). PRESUMED by the spec itself: the source gives no value (log entry 3). -/
def iv : HashState :=
  ⟨0x67452301, 0xEFCDAB89, 0x98BADCFE, 0x10325476, 0xC3D2E1F0⟩

/-! ### Round functions and constants -/

/-- The four round groups 0–19, 20–39, 40–59 and 60–79 (R77). -/
inductive RoundGroup where
  | g0
  | g1
  | g2
  | g3
  deriving DecidableEq, Repr

/-- The round group of a round counter, as the hardware selects it (R85). -/
def roundGroup (t : Nat) : RoundGroup :=
  if t < 20 then .g0 else if t < 40 then .g1 else if t < 60 then .g2 else .g3

/-- The mixing function of a round group (R77). -/
def mixGroup (g : RoundGroup) (b c d : Word) : Word :=
  match g with
  | .g0 => (b &&& c) ||| (~~~b &&& d)
  | .g1 => b ^^^ c ^^^ d
  | .g2 => (b &&& c) ||| (b &&& d) ||| (c &&& d)
  | .g3 => b ^^^ c ^^^ d

/-- The round-constant ROM `KROM` (R32). -/
def krom (g : RoundGroup) : Word :=
  match g with
  | .g0 => 0x5A827999
  | .g1 => 0x6ED9EBA1
  | .g2 => 0x8F1BBCDC
  | .g3 => 0xCA62C1D6

/-- `f(t, b, c, d)` (R77). -/
def mix (t : Nat) (b c d : Word) : Word := mixGroup (roundGroup t) b c d

/-- `k(t) = KROM[g(t)]` (R78). -/
def roundConstant (t : Nat) : Word := krom (roundGroup t)

/-- `Round(t, (a,b,c,d,e), wt)`: every right-hand side reads the values from before the round (R79). -/
def round (t : Nat) (x : Working) (wt : Word) : Working :=
  { a := rotl x.a 5 + mix t x.b x.c x.d + x.e + roundConstant t + wt
    b := x.a
    c := rotl x.b 30
    d := x.c
    e := x.d }

/-! ### The message schedule -/

/-- Byte `B[k]` of a block; only `k = 0..63` are ever asked for. -/
def byteAt (B : Block) (k : Nat) : Byte := if h : k < 64 then B[k] else 0

/-- The first 16 schedule words: the block as big-endian words (R75, R38). -/
def blockWords (B : Block) : List Word :=
  (List.range 16).map fun j =>
    be32 (byteAt B (4 * j)) (byteAt B (4 * j + 1)) (byteAt B (4 * j + 2)) (byteAt B (4 * j + 3))

/-- Append `w[i]` to the schedule words `w[0..i-1]` (R76). -/
def extendSchedule (w : List Word) : List Word :=
  let i := w.length
  w ++ [rotl (w.getD (i - 3) 0 ^^^ w.getD (i - 8) 0 ^^^ w.getD (i - 14) 0 ^^^ w.getD (i - 16) 0) 1]

/-- The schedule words `w[0 .. 15 + n]` of a block: the prefix extended by `n` words in increasing order (R76). -/
def scheduleTo (B : Block) : Nat → List Word
  | 0 => blockWords B
  | n + 1 => extendSchedule (scheduleTo B n)

/-- The message schedule `w[0..79]` (R75, R76). -/
def schedule (B : Block) : List Word := scheduleTo B 64

/-! ### The transform -/

/-- `(a,b,c,d,e) <- (H0,H1,H2,H3,H4)`: the working copy of the state (R80). -/
def loadWorking (H : HashState) : Working := ⟨H.h0, H.h1, H.h2, H.h3, H.h4⟩

/-- The working state after the rounds `0 .. n - 1`, in increasing order, with schedule words `w` (R74, R80). -/
def roundsTo (w : List Word) (x : Working) : Nat → Working
  | 0 => x
  | t + 1 => round t (roundsTo w x t) (w.getD t 0)

/-- The working state after all 80 rounds of a compression (R80). -/
def workingAfter (H : HashState) (B : Block) : Working :=
  roundsTo (schedule B) (loadWorking H) Config.rounds

/-- Accumulation: the working state is added onto the state, each word modulo 2^32 (R81). -/
def accumulate (H : HashState) (x : Working) : HashState :=
  ⟨H.h0 + x.a, H.h1 + x.b, H.h2 + x.c, H.h3 + x.d, H.h4 + x.e⟩

/-- `Compress(H, B)` (R74). -/
def compress (H : HashState) (B : Block) : HashState := accumulate H (workingAfter H B)

/-! ### The hardware schedule window -/

/-- One ROUND cycle of the window: shift by one word and append the next schedule word (R83). -/
def shiftWindow (w : Vector Word 16) : Vector Word 16 :=
  tabulate 16 fun j =>
    if h : j < 15 then w[j + 1] else rotl (w[13] ^^^ w[8] ^^^ w[2] ^^^ w[0]) 1

/-- What the window holds after the 80 rounds of a block: the recurrence of R76 carried on to `w[80..95]` (R83; no
round reads these words, and spec/93_implementation_defined.md U8 calls them any value to the host). -/
def windowAfter (B : Block) : Vector Word 16 :=
  tabulate 16 fun j => (scheduleTo B 80).getD (80 + j) 0

/-! ### Gate-level forms -/

/-- The gate-level form of group 0 the hardware may use (R84). -/
def chooseGates (b c d : Word) : Word := d ^^^ (b &&& (c ^^^ d))

/-- The gate-level form of group 2 the hardware may use (R84). -/
def majorityGates (b c d : Word) : Word := (b &&& c) ||| (d &&& (b ||| c))

end Sys2Proof.Machine
end

