-- ==== Sys2Proof/Machine/State.lean ====
section
/-!
DEFINITION. The state of the block as plain data, the reasons a step can stop, and the state after reset
(spec/10_state.md rules R14 to R27 and R34).
-/

namespace Sys2Proof.Machine

/-! ### Controller codes -/

/-- The state of the controller (R22). -/
inductive Fsm where
  | idle
  | load
  | round
  | accum
  | pad1
  | pad2
  | finish
  | done
  deriving DecidableEq, Repr

/-- Where ACCUM goes next (R23). -/
inductive Ret where
  /-- `00`, RET_IDLE: the block was dispatched by ABSORB. -/
  | idle
  /-- `01`, RET_PAD2: the block was the padding-overflow block. -/
  | pad2
  /-- `10`, RET_FINISH: the block was the last block of a finalize. -/
  | finish
  /-- `11`: unused, and unreachable from reset (spec/93_implementation_defined.md U3). -/
  | unused
  deriving DecidableEq, Repr

/-! ### The input buffer as memory -/

/-- The 64 registers of the input buffer (R16), as the pairs of index and byte that differ from what an unlisted index
reads as, in rising index order. -/
abbrev Memory := List Host.Cell

/-- What an unlisted index reads as. The spec leaves the reset contents of the buffer unspecified (R34, U5); every
register holds a value, and by DESIGN CHOICE it is zero (log entry 1). -/
abbrev Memory.unlisted : Byte := 0

/-- The canonical form of the buffer: indices strictly rising, each in 0..63 (R36), and no entry that repeats what an
unlisted index reads as. -/
abbrev Memory.wf (m : Memory) : Prop :=
  m.Pairwise (fun x y => x.1 < y.1) ∧ ∀ x ∈ m, x.1 < 64 ∧ x.2 ≠ Memory.unlisted

/-! ### The host's side of the port -/

/-- What the host does next on the port (R122, R128, R58). -/
inductive HostMove where
  /-- Present this command word and hold it until it is accepted (R122). -/
  | command (w : CommandWord)
  /-- Hold `cmd_valid = 0` for one cycle (R58, WAIT). -/
  | wait
  /-- Hold `rst = 1` for one edge (R117). -/
  | reset
  deriving DecidableEq, Repr

/-! ### State -/

/-- Every register of the block, and the host's moves to come. -/
structure State where
  /-- `H0..H4`, the HashState (R14). -/
  h : HashState
  /-- `buf[0..63]`, the InputBuffer (R16). -/
  buf : Memory
  /-- `fill`, the fill-count (R17). -/
  fill : BitVec 7
  /-- `total`, the TotalLength (R18). -/
  total : Length
  /-- `a..e`, the working registers (R19). -/
  work : Working
  /-- `W[0..15]`, the schedule window (R20). -/
  window : Vector Word 16
  /-- `t`, the round counter (R21). -/
  t : BitVec 7
  /-- `fsm`, the controller state (R22). -/
  fsm : Fsm
  /-- `ret`, where ACCUM goes next (R23). -/
  ret : Ret
  /-- `fkind`, the kind of finalize in progress: false for FINAL, true for FINALR (R24). -/
  fkind : Bool
  /-- `dig`, the digest register (R25). -/
  dig : Digest
  /-- `dig_valid` (R26). -/
  digValid : Bool
  /-- `err`, the sticky error flag (R27). -/
  err : Bool
  /-- The model's own field: the host's moves to come, oldest first. The block stores no command (R48); the list stands
  for what the host will drive on the port (log entry 5). -/
  host : List HostMove
  deriving DecidableEq, Repr

/-- Why a step can stop. No run from reset reaches either of these (R33). Both are safe: the model stops where the spec
gives no effect. -/
inductive Fault where
  /-- Raised by the writes of ABSORB and of PAD1 when `fill` is 64 or more: the buffer has no such index (R11, R36).
  Safe. -/
  | noSuchByte
  /-- Raised by ACCUM when `ret` holds the unused code `11`. Safe: the spec lets a model make it a fault (U3). -/
  | retUnused
  deriving DecidableEq, Repr

/-- Why a command can have no meaning. -/
inductive Refusal where
  /-- Raised by an arm of `exec` whose command is not modelled yet; no arm raises it. Safe. -/
  | notModelled (mnemonic : String)
  deriving DecidableEq, Repr

/-- The outcome of a command, of a clock edge or of a step. -/
abbrev Result := Host.Outcome State Fault Refusal

/-- The state after an edge with `rst = 1` (R34, R117), from which every run starts (R121, R127). The registers the
spec leaves unreset (`buf`, `a..e`, `W`, `dig`) are zero by DESIGN CHOICE (log entries 1 and 2), and the host has no
move to make. -/
def State.reset : State where
  h := iv
  buf := []
  fill := 0
  total := 0
  work := ⟨0, 0, 0, 0, 0⟩
  window := tabulate 16 fun _ => 0
  t := 0
  fsm := .idle
  ret := .idle
  fkind := false
  dig := 0
  digValid := false
  err := false
  host := []

end Sys2Proof.Machine
end

