-- ==== Sys2Proof/Machine/Operands.lean ====
section
/-!
DEFINITION. The operand forms: the input port, the length trailer, and the digest's layout (spec/10_state.md rule R13,
spec/20_memory.md rules R38 to R41, spec/40_commands.md rule R67).
-/

namespace Sys2Proof.Machine

/-! ### The input port -/

/-- The input pins, as sampled at one rising edge of `clk` (R13). -/
structure PortIn where
  /-- `rst`, synchronous reset, active high. -/
  rst : Bool
  /-- `cmd_valid`: the host presents a command. -/
  cmdValid : Bool
  /-- `cmd_op`. -/
  cmdOp : BitVec 2
  /-- `cmd_data`. -/
  cmdData : Byte
  deriving DecidableEq, Repr

/-- The pins when the host presents nothing. -/
def PortIn.quiet : PortIn := ⟨false, false, 0, 0⟩

/-- The pins while the host presents a command word (R51). -/
def PortIn.present (w : CommandWord) : PortIn := ⟨false, true, commandOp w, commandData w⟩

/-- The pins while the host asserts reset. -/
def PortIn.resetting : PortIn := ⟨true, false, 0, 0⟩

/-- The command on the pins (R52). -/
def PortIn.instr (p : PortIn) : Instr := decodeFields p.cmdOp p.cmdData

/-- The pins the host's next move drives; a host with no move to make presents nothing. -/
def State.pins (s : State) : PortIn :=
  match s.host with
  | [] => .quiet
  | .command w :: _ => .present w
  | .wait :: _ => .quiet
  | .reset :: _ => .resetting

/-! ### Lengths and digests -/

/-- The length trailer `L = (total << 3) mod 2^64` (R67). -/
def trailer (total : Length) : Length := total <<< 3

/-- `dig = {H0, H1, H2, H3, H4}` (R39). -/
def digestOf (H : HashState) : Digest := H.h0 ++ H.h1 ++ H.h2 ++ H.h3 ++ H.h4

/-- The five words of a state, `H[0..4]` (R39). -/
def HashState.words (H : HashState) : List Word := [H.h0, H.h1, H.h2, H.h3, H.h4]

end Sys2Proof.Machine
end

