-- ==== Sys2Proof/Machine/Flags.lean ====
section
/-!
DEFINITION. Derived signals, the status vector and the outputs (spec/10_state.md rules R13, R22, R23, R28 and R29,
spec/42_controller_fsm.md rule R97, spec/70_reset_and_hazards.md rule R127).
-/

namespace Sys2Proof.Machine

/-- The 3-bit code of a controller state (R22). -/
def Fsm.code : Fsm → BitVec 3
  | .idle => 0b000
  | .load => 0b001
  | .round => 0b010
  | .accum => 0b011
  | .pad1 => 0b100
  | .pad2 => 0b101
  | .finish => 0b110
  | .done => 0b111

/-- The 2-bit code of the return register (R23). -/
def Ret.code : Ret → BitVec 2
  | .idle => 0b00
  | .pad2 => 0b01
  | .finish => 0b10
  | .unused => 0b11

/-- The controller can take a command: it is in IDLE or in DONE (R28). -/
def Fsm.ready : Fsm → Bool
  | .idle => true
  | .done => true
  | .load => false
  | .round => false
  | .accum => false
  | .pad1 => false
  | .pad2 => false
  | .finish => false

/-- `cmd_ready = (NOT rst) AND (fsm == IDLE OR fsm == DONE)` (R28). -/
def State.cmdReady (s : State) (rst : Bool) : Bool := !rst && s.fsm.ready

/-- `busy = NOT (fsm == IDLE OR fsm == DONE)` (R28). -/
def State.busy (s : State) : Bool := !s.fsm.ready

/-- `consumed = (fsm == DONE)` (R28); at the transaction level, `cons` (R60). -/
def State.consumed (s : State) : Bool := s.fsm == .done

/-- `status_o[3:0] = {CONSUMED, ERR, DVALID, BUSY}` (R29, R97). -/
def State.status (s : State) : BitVec 4 :=
  BitVec.ofBool s.consumed ++ BitVec.ofBool s.err ++ BitVec.ofBool s.digValid ++ BitVec.ofBool s.busy

/-- The output pins (R13). -/
structure PortOut where
  /-- `cmd_ready`. -/
  cmdReady : Bool
  /-- `dig_o`. -/
  digO : Digest
  /-- `dig_valid`. -/
  digValid : Bool
  /-- `status_o`. -/
  statusO : BitVec 4
  deriving DecidableEq, Repr

/-- The outputs: Moore outputs of the registers, but for `cmd_ready`, which also depends on `rst` (R97). -/
def State.outputs (s : State) (rst : Bool) : PortOut :=
  ⟨s.cmdReady rst, s.dig, s.digValid, s.status⟩

/-- A command is accepted at an edge with `rst = 0`, `cmd_valid = 1` and `cmd_ready = 1` (R87). -/
def PortIn.accepts (p : PortIn) (s : State) : Bool := p.cmdValid && s.cmdReady p.rst

/-- What the host may rely on at the end of a run (R127): `dig_o` only while `dig_valid = 1` (R123, U1). -/
structure Observation where
  /-- `dig_o` if `dig_valid = 1`. -/
  digest : Option Digest
  /-- `dig_valid`. -/
  digValid : Bool
  /-- `status_o`. -/
  status : BitVec 4
  deriving DecidableEq, Repr

/-- The observation at the end of a run (R127). -/
def State.observe (s : State) : Observation :=
  ⟨if s.digValid then some s.dig else none, s.digValid, s.status⟩

end Sys2Proof.Machine
end

