-- ==== Sys2Proof/Machine/Ops.lean ====
section
/-!
DEFINITION. The operations that commands and controller steps share: the buffer's reads and writes, dispatching a
block, raising CmdError and recovering from it, reset, and the host's queue of moves.
-/

namespace Sys2Proof.Machine

/-- Go on with the next state, or stop where the first part stopped. -/
def andThen (r : Result) (k : State → Result) : Result :=
  match r with
  | .next s => k s
  | .fault f => .fault f
  | .refused f => .refused f

/-! ### The input buffer -/

/-- The byte at an index of the buffer. -/
def Memory.read : Memory → Nat → Byte
  | [], _ => Memory.unlisted
  | (j, b) :: m, i => if i = j then b else Memory.read m i

/-- List a byte, keeping the indices in rising order. -/
def Memory.put : Memory → Nat → Byte → Memory
  | [], i, v => [(i, v)]
  | (j, b) :: m, i, v =>
    if i < j then (i, v) :: (j, b) :: m
    else if i = j then (i, v) :: m
    else (j, b) :: Memory.put m i v

/-- Unlist an index. -/
def Memory.unlist (m : Memory) (i : Nat) : Memory := m.filter fun c => c.1 != i

/-- Write one byte: what an unlisted index reads as is not listed. -/
def Memory.write (m : Memory) (i : Nat) (v : Byte) : Memory :=
  if v = Memory.unlisted then Memory.unlist m i else Memory.put m i v

/-- `buf[i], buf[i+1], … <- bs`: `MemWrite`, most significant byte first (R11). -/
def Memory.writeBytes (m : Memory) (i : Nat) : List Byte → Memory
  | [] => m
  | b :: bs => Memory.writeBytes (m.write i b) (i + 1) bs

/-- `buf[j] <- 0x00` for every `j` in `lo .. lo + n - 1` (R89, R90). -/
def Memory.zeroes (m : Memory) (lo n : Nat) : Memory := m.writeBytes lo (List.replicate n 0)

/-- `MemRead(i, 4)`, big-endian (R11, R38). -/
def Memory.read32 (m : Memory) (i : Nat) : Word := be32 (m.read i) (m.read (i + 1)) (m.read (i + 2)) (m.read (i + 3))

/-- The sixteen words LOAD reads, `MemRead(4*j, 4)` for `j = 0..15` (R91). -/
def Memory.words (m : Memory) : Vector Word 16 := tabulate 16 fun j => m.read32 (4 * j)

/-- The block `buf[0..63]` (R62, R65). -/
def Memory.block (m : Memory) : Block := tabulate 64 m.read

/-- `buf[i] <- v`. The buffer has the indices 0..63 and no other (R36). -/
def storeByte (i : Nat) (v : Byte) (s : State) : Result :=
  if i < Config.blockBytes then .next { s with buf := s.buf.write i v } else .fault .noSuchByte

/-- PAD1's zero fill: `buf[j] <- 0x00` for `j` in `p+1 .. 63` (R65 step 2, R89). -/
def zeroAfter (p : Nat) (m : Memory) : Memory := m.zeroes (p + 1) (63 - p)

/-- PAD2's writes: `buf[j] <- 0x00` for `j` in `q .. 55`, then the length trailer into `buf[56..63]` (R65 steps 3 and
4, R90, R40). -/
def writeTrailer (q : Nat) (total : Length) (m : Memory) : Memory :=
  (m.zeroes q (56 - q)).writeBytes Config.trailerOffset (bytesBe64 (trailer total))

/-! ### Dispatching a block -/

/-- `H <- Compress(H, buf[0..63]); fill <- 0` (R62, R65), with what the pipeline's own registers hold once the block has
gone through it: the working state after round 79, the shifted window, `t = 80` and the `ret` that dispatched it
(R91 to R93). -/
def compressBuffer (dispatchedBy : Ret) (s : State) : State :=
  { s with
    h := compress s.h s.buf.block
    fill := 0
    work := workingAfter s.h s.buf.block
    window := windowAfter s.buf.block
    t := 80
    ret := dispatchedBy }

/-! ### Errors, recovery and reset -/

/-- `raise CmdError()`: the command is discarded and `err` is set; no state is saved, nothing else changes and the block
stays in DONE (R101, R108, R110). -/
def raiseCmdError (s : State) : State := { s with err := true }

/-- create(): the effect of INIT, which is also the recovery from CmdError (R61, R109). -/
def create (s : State) : State :=
  { s with h := iv, fill := 0, total := 0, digValid := false, err := false, fsm := .idle }

/-- An edge with `rst = 1`: every register takes its reset value, and `buf`, `W`, `a..e` and `dig` keep theirs (R117). -/
def hardReset (s : State) : State :=
  { s with
    h := iv
    fill := 0
    total := 0
    t := 0
    fsm := .idle
    ret := .idle
    fkind := false
    digValid := false
    err := false }

/-! ### Taking a command -/

/-- A command that is legal in every state that takes commands: it has its effect in IDLE and in DONE, and in a busy
state it is not accepted and changes nothing (R55, R87). -/
def whenReady (s : State) (effect : State → Result) : Result :=
  match s.fsm with
  | .idle => effect s
  | .done => effect s
  | .load => .next s
  | .round => .next s
  | .accum => .next s
  | .pad1 => .next s
  | .pad2 => .next s
  | .finish => .next s

/-- A command that is legal in IDLE only: in DONE it raises CmdError, and in a busy state it is not accepted and changes
nothing (R55, R87, R101). -/
def whenLegal (s : State) (effect : State → Result) : Result :=
  match s.fsm with
  | .idle => effect s
  | .done => .next (raiseCmdError s)
  | .load => .next s
  | .round => .next s
  | .accum => .next s
  | .pad1 => .next s
  | .pad2 => .next s
  | .finish => .next s

/-! ### The host's moves -/

/-- The host's next move is over: the command has been accepted, or the edge has passed. -/
def State.nextMove (s : State) : State := { s with host := s.host.drop 1 }

/-- An edge passes without accepting a command. A command on the port keeps waiting there (R87, R122); a WAIT or a
reset lasts one edge. -/
def State.passEdge (s : State) : State :=
  match s.host with
  | [] => s
  | .command _ :: _ => s
  | .wait :: _ => s.nextMove
  | .reset :: _ => s.nextMove

/-- Place a command word as the host's next move. -/
def State.place (s : State) (w : CommandWord) : State := { s with host := .command w :: s.host }

end Sys2Proof.Machine
end

