-- ==== Sys2Proof/Machine/Controller.lean ====
section
/-!
DEFINITION. The clocked controller: the writes made at one rising edge of `clk` in each state of the FSM
(spec/42_controller_fsm.md rules R86 to R97, spec/70_reset_and_hazards.md rule R117). Every right-hand side reads the
registers as they were before the edge, and a register that a rule does not name keeps its value (R11, R96).
-/

namespace Sys2Proof.Machine

/-- IDLE with a command accepted (R88). -/
def idleRule (i : Instr) (s : State) : Result :=
  match i with
  | .init _ => .next (create s)
  | .absorb d =>
    andThen (storeByte s.fill.toNat d s) fun s₁ =>
      if s.fill = 63 then
        .next { s₁ with total := s.total + 1, fill := s.fill + 1, ret := .idle, fsm := .load }
      else .next { s₁ with total := s.total + 1, fill := s.fill + 1 }
  | .final _ => .next { s with fkind := false, digValid := false, fsm := .pad1 }
  | .finalr _ => .next { s with fkind := true, digValid := false, fsm := .pad1 }

/-- DONE with a command accepted (R95). -/
def doneRule (i : Instr) (s : State) : Result :=
  match i with
  | .init _ => .next (create s)
  | .absorb _ => .next (raiseCmdError s)
  | .final _ => .next (raiseCmdError s)
  | .finalr _ => .next (raiseCmdError s)

/-- PAD1 (R89). -/
def pad1Rule (s : State) : Result :=
  andThen (storeByte s.fill.toNat 0x80 s) fun s₁ =>
    if Config.lastFillWithoutOverflow < s.fill.toNat then
      .next { s₁ with buf := zeroAfter s.fill.toNat s₁.buf, fill := 64, ret := .pad2, fsm := .load }
    else .next { s₁ with fill := s.fill + 1, fsm := .pad2 }

/-- PAD2 (R90). -/
def pad2Rule (s : State) : Result :=
  .next { s with
    buf := writeTrailer s.fill.toNat s.total s.buf
    fill := 64
    ret := .finish
    fsm := .load }

/-- LOAD (R91). -/
def loadRule (s : State) : Result :=
  .next { s with window := s.buf.words, work := loadWorking s.h, t := 0, fill := 0, fsm := .round }

/-- ROUND (R92). -/
def roundRule (s : State) : Result :=
  .next { s with
    work := round s.t.toNat s.work s.window[0]
    window := shiftWindow s.window
    t := s.t + 1
    fsm := if s.t = 79 then .accum else .round }

/-- ACCUM (R93). -/
def accumRule (s : State) : Result :=
  match s.ret with
  | .idle => .next { s with h := accumulate s.h s.work, fsm := .idle }
  | .pad2 => .next { s with h := accumulate s.h s.work, fsm := .pad2 }
  | .finish => .next { s with h := accumulate s.h s.work, fsm := .finish }
  | .unused => .fault .retUnused

/-- FINISH (R94). -/
def finishRule (s : State) : Result :=
  if s.fkind then
    .next { s with dig := digestOf s.h, digValid := true, h := iv, total := 0, fill := 0, fsm := .idle }
  else .next { s with dig := digestOf s.h, digValid := true, fsm := .done }

/-- One rising edge of `clk`, with the pins as sampled at it (R86). Reset overrides every other rule (R107, R117); a
command is sampled only where it can be accepted (R87, R99). -/
def clockEdge (p : PortIn) (s : State) : Result :=
  if p.rst then .next (hardReset s)
  else
    match s.fsm with
    | .idle => if p.cmdValid then idleRule p.instr s else .next s
    | .done => if p.cmdValid then doneRule p.instr s else .next s
    | .load => loadRule s
    | .round => roundRule s
    | .accum => accumRule s
    | .pad1 => pad1Rule s
    | .pad2 => pad2Rule s
    | .finish => finishRule s

/-- The edges of a run, one set of pins each, stopping at the first fault. -/
def runEdges : List PortIn → State → Result
  | [], s => .next s
  | p :: ps, s => andThen (clockEdge p s) (runEdges ps)

end Sys2Proof.Machine
end

