-- ==== Sys2Proof/Machine/Commands.lean ====
section
/-!
DEFINITION. The meanings of the four host commands, each one indivisible state change (spec/40_commands.md rules R60 to
R67).
-/

namespace Sys2Proof.Machine

/-- The effect of `INIT` on an engine that takes it (R61). -/
def initEffect (s : State) : Result := .next (create s)

/-- The effect of `ABSORB d` on an engine that is not consumed (R62). -/
def absorbEffect (d : Byte) (s : State) : Result :=
  andThen (storeByte s.fill.toNat d s) fun s₁ =>
    let s₂ := { s₁ with fill := s₁.fill + 1, total := s₁.total + 1 }
    .next (if s₂.fill = 64 then compressBuffer .idle s₂ else s₂)

/-- Steps 1 and 2 of `Finalize()`: the `0x80` byte, and the overflow block when `p > 55` (R65, R66). -/
def padMarker (s : State) : Result :=
  let p := s.fill
  andThen (storeByte p.toNat 0x80 s) fun s₁ =>
    if Config.lastFillWithoutOverflow < p.toNat then
      .next (compressBuffer .pad2 { s₁ with buf := zeroAfter p.toNat s₁.buf })
    else .next { s₁ with fill := p + 1 }

/-- Steps 3 to 6 of `Finalize()`: the zero fill, the trailer, the last compression and the digest (R65). -/
def padTrailer (s : State) : State :=
  let s₁ := compressBuffer .finish { s with buf := writeTrailer s.fill.toNat s.total s.buf }
  { s₁ with dig := digestOf s₁.h }

/-- `Finalize()`, the padding and last-block procedure of FINAL and FINALR (R65). -/
def finalize (s : State) : Result := andThen (padMarker s) fun s₁ => .next (padTrailer s₁)

/-- The effect of `FINAL` on an engine that is not consumed (R63); `fkind` is left at 0 (R24). -/
def finalEffect (s : State) : Result :=
  andThen (finalize { s with fkind := false }) fun s₁ =>
    .next { s₁ with digValid := true, fsm := .done }

/-- The effect of `FINALR` on an engine that is not consumed (R64); `fkind` is left at 1 (R24). -/
def finalrEffect (s : State) : Result :=
  andThen (finalize { s with fkind := true }) fun s₁ =>
    .next { s₁ with digValid := true, h := iv, total := 0, fill := 0 }

/-- `INIT` (R61). -/
def execInit (s : State) : Result := whenReady s initEffect

/-- `ABSORB d` (R62). -/
def execAbsorb (d : Byte) (s : State) : Result := whenLegal s (absorbEffect d)

/-- `FINAL` (R63). -/
def execFinal (s : State) : Result := whenLegal s finalEffect

/-- `FINALR` (R64). -/
def execFinalr (s : State) : Result := whenLegal s finalrEffect

end Sys2Proof.Machine
end

