-- ==== Sys2Proof/Machine/Dispatch.lean ====
section
/-! DEFINITION. One arm per command (spec/opcode_table.json). The reserved `data` field of INIT, FINAL and FINALR is
ignored (spec/30_encoding.md rule R53). -/

namespace Sys2Proof.Machine

/-- The meaning of a command at the transaction level (spec/40_commands.md rule R60). -/
def exec (i : Instr) (s : State) : Host.Outcome State Fault Refusal :=
  match i with
  | .init _ => Sys2Proof.Machine.execInit s
  | .absorb d => Sys2Proof.Machine.execAbsorb d s
  | .final _ => Sys2Proof.Machine.execFinal s
  | .finalr _ => Sys2Proof.Machine.execFinalr s

end Sys2Proof.Machine
end

