-- ==== Sys2Proof/Machine/Step.lean ====
section
/-!
DEFINITION. One step of the machine, and how a command word is placed so that the next step takes it
(log entries 4 and 5).
-/

namespace Sys2Proof.Machine

/-- One step: the command on the port if the block accepts it, run to its end as one indivisible change (R43, R46,
R60); otherwise one clock edge, at which nothing is accepted and a command on the port keeps waiting (R86, R87). -/
def step (s : State) : Host.Outcome State Fault Refusal :=
  if s.pins.accepts s then exec s.pins.instr s.nextMove else clockEdge s.pins s.passEdge

/-- The state with a command word of spec/opcode_table.json as the host's next move, so that the next step of a block
that is ready accepts and runs it. By DESIGN CHOICE the port takes bits 9:0 of the row's `nbits` bits and ignores the
bits above, for which it has no wires (log entry 13). -/
def State.withFetchWord (s : State) (nbits w : Nat) : State := s.place (BitVec.ofNat 10 (w % 2 ^ nbits))

end Sys2Proof.Machine
end

