-- ==== Sys2Proof/Machine/Assembly.lean ====
section
/-!
DEFINITION. The command assembly syntax and the pseudo-commands (spec/30_encoding.md rules R57 and R58). A line is a
list of characters. Points the rules leave open are log entry 7.
-/

namespace Sys2Proof.Machine

/-! ### Commands and pseudo-commands -/

/-- What one line of assembly asks for (R57, R58). -/
inductive AsmCommand where
  /-- A command. -/
  | plain (i : Instr)
  /-- `ABSORB.BYTES b0, …, bn-1`. -/
  | absorbBytes (bytes : List Byte)
  /-- `ABSORB.STR "s"`, with the ASCII codes of `s`. -/
  | absorbStr (codes : List Byte)
  /-- `HASH "s"`. -/
  | hash (codes : List Byte)
  /-- `HASHR "s"`. -/
  | hashr (codes : List Byte)
  /-- `WAIT`. -/
  | wait
  deriving DecidableEq, Repr

/-- The assembled form of a command: the host presents its word (R57). -/
def assembled (i : Instr) : HostMove := .command (encode i)

/-- The assembled form of `ABSORB` for each byte in order; nothing when there is no byte (R58). -/
def absorbMoves (bytes : List Byte) : List HostMove := bytes.map fun b => assembled (.absorb b)

/-- The exact expansion of a line's command (R58). -/
def AsmCommand.expand : AsmCommand → List HostMove
  | .plain i => [assembled i]
  | .absorbBytes bytes => absorbMoves bytes
  | .absorbStr codes => absorbMoves codes
  | .hash codes => assembled (.init 0) :: absorbMoves codes ++ [assembled (.final 0)]
  | .hashr codes => assembled (.init 0) :: absorbMoves codes ++ [assembled (.finalr 0)]
  | .wait => [.wait]

/-! ### Tokens -/

/-- A token of a line. -/
inductive AsmToken where
  | name (cs : List Char)
  | number (n : Nat)
  | quoted (c : Char)
  | text (cs : List Char)
  | colon
  | comma
  deriving DecidableEq, Repr

/-- A character of a mnemonic or a label. -/
def isNameChar (c : Char) : Bool := c.isAlphanum || c == '.' || c == '_'

/-- The value of a hexadecimal digit. -/
def hexDigit? (c : Char) : Option Nat :=
  if '0' ≤ c && c ≤ '9' then some (c.toNat - 48)
  else if 'A' ≤ c && c ≤ 'F' then some (c.toNat - 55)
  else if 'a' ≤ c && c ≤ 'f' then some (c.toNat - 87)
  else none

/-- The value of a run of decimal digits. By DESIGN CHOICE it may begin with zeros (log entry 7). -/
def decimal? (cs : List Char) : Option Nat :=
  if cs.all Char.isDigit then some (cs.foldl (fun n c => 10 * n + (c.toNat - 48)) 0) else none

/-- A word of name characters as a token: hexadecimal `0xNN`, decimal, or a name (R57). -/
def wordToken (cs : List Char) : Option AsmToken :=
  match cs with
  | ['0', 'x', c, d] =>
    match hexDigit? c, hexDigit? d with
    | some hi, some lo => some (.number (16 * hi + lo))
    | _, _ => none
  | [] => none
  | c :: _ => if c.isDigit then (decimal? cs).map .number else some (.name cs)

/-- The tokens of a line, up to a comment; each call takes at least one character, so the line's length is fuel enough.
`word` holds the name characters read so far. By DESIGN CHOICE no separator is needed before a quoted operand or around a
colon or a comma, since those tokens end the word before them (log entry 7). -/
def tokensFrom : Nat → List Char → List Char → Option (List AsmToken)
  | 0, _, _ => none
  | fuel + 1, word, line =>
    let flush (rest : Option (List AsmToken)) : Option (List AsmToken) :=
      if word.isEmpty then rest
      else
        match wordToken word.reverse, rest with
        | some w, some ts => some (w :: ts)
        | _, _ => none
    match line with
    | [] => flush (some [])
    | ';' :: _ => flush (some [])
    | '\'' :: c :: '\'' :: cs => flush ((tokensFrom fuel [] cs).map (.quoted c :: ·))
    | '"' :: cs =>
      let body := cs.takeWhile (· != '"')
      match cs.drop body.length with
      | [] => none
      | _ :: after => flush ((tokensFrom fuel [] after).map (.text body :: ·))
    | c :: cs =>
      if isNameChar c then tokensFrom fuel (c :: word) cs
      else if c == ':' then flush ((tokensFrom fuel [] cs).map (.colon :: ·))
      else if c == ',' then flush ((tokensFrom fuel [] cs).map (.comma :: ·))
      else if c == ' ' || c == '\t' then flush (tokensFrom fuel [] cs)
      else none

/-- The tokens of a line. -/
def tokens (line : List Char) : Option (List AsmToken) := tokensFrom (line.length + 1) [] line

/-! ### Parsing -/

/-- The ASCII code of a character. -/
def ascii? (c : Char) : Option Byte := if c.toNat < 128 then some (BitVec.ofNat 8 c.toNat) else none

/-- `<byte>`: a hexadecimal or decimal number up to 255, or a quoted character (R57). -/
def byteOperand? : AsmToken → Option Byte
  | .number n => if n < 256 then some (BitVec.ofNat 8 n) else none
  | .quoted c => ascii? c
  | .name _ => none
  | .text _ => none
  | .colon => none
  | .comma => none

/-- The bytes of an `ABSORB.BYTES`, separated by commas. The repetition `0x61 × 56` that spec/95_test_vectors.md P3 and
P4 print is no form of R58; by DESIGN CHOICE such a line is refused (log entry 7). -/
def byteList? : List AsmToken → Option (List Byte)
  | [] => some []
  | [t] => (byteOperand? t).map fun b => [b]
  | t :: .comma :: u :: ts =>
    match byteOperand? t, byteList? (u :: ts) with
    | some b, some bs => some (b :: bs)
    | _, _ => none
  | _ :: _ :: _ => none

/-- The command of a line without its label (R57, R58). -/
def command? (mnemonic : List Char) (operands : List AsmToken) : Option AsmCommand :=
  if mnemonic = ['I', 'N', 'I', 'T'] then
    if operands.isEmpty then some (.plain (.init 0)) else none
  else if mnemonic = ['A', 'B', 'S', 'O', 'R', 'B'] then
    match operands with
    | [t] => (byteOperand? t).map fun b => .plain (.absorb b)
    | _ => none
  else if mnemonic = ['F', 'I', 'N', 'A', 'L'] then
    if operands.isEmpty then some (.plain (.final 0)) else none
  else if mnemonic = ['F', 'I', 'N', 'A', 'L', 'R'] then
    if operands.isEmpty then some (.plain (.finalr 0)) else none
  else if mnemonic = ['A', 'B', 'S', 'O', 'R', 'B', '.', 'B', 'Y', 'T', 'E', 'S'] then
    (byteList? operands).map .absorbBytes
  else if mnemonic = ['W', 'A', 'I', 'T'] then
    if operands.isEmpty then some .wait else none
  else
    match operands with
    | [.text cs] =>
      match cs.mapM ascii? with
      | none => none
      | some codes =>
        if mnemonic = ['A', 'B', 'S', 'O', 'R', 'B', '.', 'S', 'T', 'R'] then some (.absorbStr codes)
        else if mnemonic = ['H', 'A', 'S', 'H'] then some (.hash codes)
        else if mnemonic = ['H', 'A', 'S', 'H', 'R'] then some (.hashr codes)
        else none
    | _ => none

/-- A line as the commands it asks for: none for an empty line, a label alone or a comment; a label means nothing to
the block (R57). -/
def parseLine (line : List Char) : Option (List AsmCommand) :=
  match tokens line with
  | none => none
  | some [] => some []
  | some [.name _, .colon] => some []
  | some (.name _ :: .colon :: .name mnemonic :: operands) => (command? mnemonic operands).map fun c => [c]
  | some (.name mnemonic :: operands) => (command? mnemonic operands).map fun c => [c]
  | some _ => none

/-- The host's moves for a program, one command a line (R57, R58). -/
def assemble (lines : List (List Char)) : Option (List HostMove) :=
  (lines.mapM parseLine).map fun cs => cs.flatten.flatMap AsmCommand.expand

/-- The host takes up a program: its moves come after those already waiting (R127). -/
def State.withProgram (s : State) (moves : List HostMove) : State := { s with host := s.host ++ moves }

end Sys2Proof.Machine
end

