-- ==== Sys2Proof/Machine/Timing.lean ====
section
/-!
DEFINITION. Command streams, and what a command costs in compressions and clock cycles (spec/40_commands.md rules R60 and
R68, spec/70_reset_and_hazards.md rule R125).
-/

namespace Sys2Proof.Machine

/-- Is the command a finalize, `op[1] = 1` (R52)? -/
def isFinalize : Instr → Bool
  | .init _ => false
  | .absorb _ => false
  | .final _ => true
  | .finalr _ => true

/-- A command stream at the transaction level: the fold of the commands' meanings, in acceptance order (R60). -/
def runCommands : List Instr → State → Result
  | [], s => .next s
  | i :: is, s => andThen (exec i s) (runCommands is)

/-- The compressions a command runs from a state that takes it (R68). -/
def compressions (i : Instr) (s : State) : Nat :=
  match s.fsm, i with
  | .idle, .absorb _ => if s.fill = 63 then 1 else 0
  | .idle, .final _ => if s.fill.toNat ≤ Config.lastFillWithoutOverflow then 1 else 2
  | .idle, .finalr _ => if s.fill.toNat ≤ Config.lastFillWithoutOverflow then 1 else 2
  | _, _ => 0

/-- The cycles of a command that belong to no compression: PAD1, PAD2 and FINISH of a finalize (R125). -/
def paddingCycles (i : Instr) (s : State) : Nat :=
  match s.fsm, i with
  | .idle, .final _ => 3
  | .idle, .finalr _ => 3
  | _, _ => 0

/-- The busy cycles after the edge that accepts a command (R125). -/
def busyCycles (i : Instr) (s : State) : Nat :=
  paddingCycles i s + Config.compressionCycles * compressions i s

/-- A quantity summed over the commands of a stream, each taken in the state it is accepted in. -/
def sumOver (cost : Instr → State → Nat) : List Instr → State → Nat
  | [], _ => 0
  | i :: is, s =>
    match exec i s with
    | .next s' => cost i s + sumOver cost is s'
    | .fault _ => cost i s
    | .refused _ => cost i s

/-- The edges a stream takes when the host issues each command as soon as it is ready: the acceptance edge and the busy
cycles of each (R125). -/
def streamEdges (is : List Instr) (s : State) : Nat := sumOver (fun i s => 1 + busyCycles i s) is s

/-- The compressions a stream runs (R68). -/
def streamCompressions (is : List Instr) (s : State) : Nat := sumOver compressions is s

/-- The pins of a host that makes each of its moves as soon as the block is ready for it: a command word at the
acceptance edge, then nothing while the block is busy (R125); nothing for a WAIT (R58); `rst = 1` for a reset (R117). -/
def issueMoves : List HostMove → State → List PortIn
  | [], _ => []
  | .command w :: ms, s =>
    .present w :: List.replicate (busyCycles (decode w) s) .quiet ++
      match exec (decode w) s with
      | .next s' => issueMoves ms s'
      | .fault _ => []
      | .refused _ => []
  | .wait :: ms, s => .quiet :: issueMoves ms s
  | .reset :: ms, s => .resetting :: issueMoves ms (hardReset s)

/-- The pins of a host that issues each command of a stream as soon as the block is ready for it (R125). -/
def issueWhenReady (is : List Instr) (s : State) : List PortIn := issueMoves (is.map fun i => .command (encode i)) s

end Sys2Proof.Machine
end

