-- ==== Sys2Proof/Machine/Message.lean ====
section
/-!
DEFINITION. The message-level function: padding a byte string, the hash of a message, and the blocks a finalize
compresses (spec/40_commands.md rules R65 to R73, spec/20_memory.md rule R45).
-/

namespace Sys2Proof.Machine

/-- The zero bytes of the padding: the least `k` with `(n + 1 + k) mod 64 = 56` (R73). -/
def padZeroes (n : Nat) : Nat := (119 - n % 64) % 64

/-- `Pad(m) = m || 0x80 || 0x00^k || bytes_be64(8n)` (R73). -/
def padMessage (m : List Byte) : List Byte :=
  m ++ [0x80] ++ List.replicate (padZeroes m.length) 0 ++ bytesBe64 (BitVec.ofNat 64 (8 * m.length))

/-- Block `k` of a byte string (R73). -/
def blockAt (bytes : List Byte) (k : Nat) : Block := tabulate 64 fun j => bytes.getD (64 * k + j) 0

/-- `Compress(...Compress(H, B1)..., Bq)` over the whole blocks of a byte string (R73). -/
def compressAll (H : HashState) (bytes : List Byte) : HashState :=
  (List.range (bytes.length / 64)).foldl (fun H k => compress H (blockAt bytes k)) H

/-- `Hash(m)` (R73). -/
def hashMessage (m : List Byte) : Digest := digestOf (compressAll iv (padMessage m))

/-- The command stream that absorbs a message: `ABSORB.BYTES` (R58). -/
def absorbAll (m : List Byte) : List Instr := m.map .absorb

/-- The bytes of the last block from offset 56: the length trailer (R40, R45). -/
def trailerByte (total : Length) (j : Nat) : Byte := (bytesBe64 (trailer total)).getD (j - 56) 0

/-- The block of a finalize without overflow: the message tail, `0x80`, zeros and the bit length (R45). -/
def lastBlock (p : Nat) (tail : Nat → Byte) (total : Length) : Block :=
  tabulate 64 fun j =>
    if j < p then tail j else if j = p then 0x80 else if j < 56 then 0 else trailerByte total j

/-- The overflow block of a finalize: the message tail, `0x80` and zeros (R45). -/
def overflowBlock (p : Nat) (tail : Nat → Byte) : Block :=
  tabulate 64 fun j => if j < p then tail j else if j = p then 0x80 else 0

/-- The last block of a finalize after an overflow block: zeros and the bit length (R45, R66). -/
def trailerBlock (total : Length) : Block :=
  tabulate 64 fun j => if j < 56 then 0 else trailerByte total j

/-- The blocks a finalize compresses, in order: two when `p > 55`, else one (R65, R66). -/
def finalBlocks (p : Nat) (tail : Nat → Byte) (total : Length) : List Block :=
  if Config.lastFillWithoutOverflow < p then [overflowBlock p tail, trailerBlock total]
  else [lastBlock p tail total]

/-- The HashState a finalize reaches: the fold of its blocks (R65). -/
def finalHash (s : State) : HashState :=
  (finalBlocks s.fill.toNat s.buf.read s.total).foldl compress s.h

/-- The digest of the first finalize a stream completes, if it completes one (R70). -/
def firstDigest : List Instr → State → Option Digest
  | [], _ => none
  | i :: is, s =>
    match exec i s with
    | .next s' => if isFinalize i && s.fsm == .idle then some s'.dig else firstDigest is s'
    | .fault _ => none
    | .refused _ => none

end Sys2Proof.Machine
end

