-- ==== Sys2Proof/Safety.lean ====
section
/-!
DEFINITION. What counts as a safe state and a safe run, in the terms the statements use.
-/

namespace Sys2Proof.Machine

/-- What the spec says of the registers at every clock edge reached from reset (spec/10_state.md rule R33). -/
structure ControllerInvariant (s : State) : Prop where
  /-- (a) -/
  fill_le : s.fill ≤ 64
  /-- (a) -/
  full_only_in_load : s.fill = 64 → s.fsm = .load
  /-- (b) -/
  idle_fill : s.fsm = .idle → s.fill ≤ 63
  /-- (c) -/
  idle_fill_eq : s.fsm = .idle → s.fill.toNat = s.total.toNat % 64
  /-- (d) -/
  done_fill : s.fsm = .done → s.fill = 0
  /-- (e) -/
  round_t : s.fsm = .round → s.t ≤ 79
  /-- (f) -/
  ret_used : s.ret ≠ .unused
  /-- (g): FINISH is entered only by an ACCUM with RET_FINISH, and no rule between writes `ret`. -/
  finish_ret : s.fsm = .finish → s.ret = .finish
  /-- (h) -/
  err_done : s.err = true → s.fsm = .done

/-- The states in which a block is on its way through the pipeline. -/
def Fsm.inPipeline : Fsm → Bool
  | .load => true
  | .round => true
  | .accum => true
  | .idle => false
  | .pad1 => false
  | .pad2 => false
  | .finish => false
  | .done => false

/-- The invariant of the model: rule R33 with what makes it inductive. It rules out the states no run reaches. -/
structure Inv (s : State) : Prop extends ControllerInvariant s where
  /-- The buffer is in canonical form. -/
  buf_wf : s.buf.wf
  /-- A block in LOAD is full (R50, R91). -/
  load_full : s.fsm = .load → s.fill = 64
  /-- In PAD1 the fill-count is that of the engine that took the finalize (R89). -/
  pad1_fill : s.fsm = .pad1 → s.fill ≤ 63
  /-- In PAD2 the fill-count leaves room for the trailer (R90). -/
  pad2_fill : s.fsm = .pad2 → s.fill ≤ 56
  /-- LOAD clears the fill-count (R91). -/
  cleared : s.fsm = .round ∨ s.fsm = .accum ∨ s.fsm = .finish → s.fill = 0
  /-- A block dispatched by ABSORB ends on a multiple of 64 bytes. -/
  absorbed_block : s.fsm.inPipeline = true → s.ret = .idle → s.total.toNat % 64 = 0

/-- The block is ready to take a command: it is in IDLE or in DONE (R28). -/
def State.Ready (s : State) : Prop := s.fsm.ready = true

/-- Two engines no later digest can tell apart: they agree on `H`, `fill`, `total`, `err`, the controller state and the
bytes of the partial block (R50, R70). -/
structure SameEngine (s s' : State) : Prop where
  h : s.h = s'.h
  fill : s.fill = s'.fill
  total : s.total = s'.total
  fsm : s.fsm = s'.fsm
  err : s.err = s'.err
  bytes : ∀ j < s.fill.toNat, s.buf.read j = s'.buf.read j

/-- Two states whose controllers agree; their data may differ (R126). -/
structure SameControl (s s' : State) : Prop where
  fsm : s.fsm = s'.fsm
  fill : s.fill = s'.fill
  t : s.t = s'.t
  ret : s.ret = s'.ret
  fkind : s.fkind = s'.fkind
  digValid : s.digValid = s'.digValid
  err : s.err = s'.err

/-- Pins that agree on everything but the data byte (R126). -/
def SamePort (p p' : PortIn) : Prop := p.rst = p'.rst ∧ p.cmdValid = p'.cmdValid ∧ p.cmdOp = p'.cmdOp

/-- No edge of the run raises reset. -/
def NoReset (ps : List PortIn) : Prop := ∀ p ∈ ps, p.rst = false

end Sys2Proof.Machine
end

