-- ==== Sys2Proof/WellFormed.lean ====
section
/-!
DEFINITION. Well-formed commands: the check a program checker may make (spec/30_encoding.md rule R53,
spec/93_implementation_defined.md U2). The hardware does not make it: `exec` runs every command, well formed or not.
-/

namespace Sys2Proof

/-- A command is well formed when a reserved `data` field is zero, as it should be (R53). Every byte is a legal operand
of ABSORB (R53, R62). -/
def Instr.wellFormed : Instr → Bool
  | .init reserved => reserved == 0
  | .absorb _ => true
  | .final reserved => reserved == 0
  | .finalr reserved => reserved == 0

end Sys2Proof
end

