-- ==== Sys2Proof/Certificates/Slice0/Obligations.lean ====
section
/-!
DEFINITION. The statements for the provers. Each docstring names the rule of spec/ it formalises, and the log entry where
it rests on a choice of the model. `Inv`, `Ready`, `SameEngine`, `SameControl`, `SamePort` and `NoReset` are in
Safety.lean.
-/

open Sys2Proof Sys2Proof.Machine

/-! ### Encoding -/

/-- Rules R51, R52: encoding a command and decoding the word gives the command back, with every value of its `data`
field. -/
def Obligations.DecodeOfEncode : Prop :=
  ∀ i : Instr, decode (encode i) = i

/-- Rules R51, R54: every one of the 1024 command words is the encoding of the command it decodes to. -/
def Obligations.EncodeOfDecode : Prop :=
  ∀ w : CommandWord, encode (decode w) = w

/-- Rules R52 and R54: `word[9:8]` selects the command, and `word[7:0]` is its `data` field, in all 1024 words. -/
def Obligations.OpFieldSelectsCommand : Prop :=
  ∀ w : CommandWord,
    (w.extractLsb' 8 2 = 0b00 → decode w = .init (w.extractLsb' 0 8)) ∧
    (w.extractLsb' 8 2 = 0b01 → decode w = .absorb (w.extractLsb' 0 8)) ∧
    (w.extractLsb' 8 2 = 0b10 → decode w = .final (w.extractLsb' 0 8)) ∧
    (w.extractLsb' 8 2 = 0b11 → decode w = .finalr (w.extractLsb' 0 8))

/-- Words written out bit by bit from the encoding of rules R51 and R52 decode to the commands they stand for. That a
row of the opcode table is read from the low `nbits` bits of a number, and that a number wider than a command word is
refused, is the model's choice (log entry 13). -/
def Obligations.SpecWordsDecode : Prop :=
  decode 0b0000000000 = .init 0x00 ∧
  decode 0b0001011010 = .init 0x5A ∧
  decode 0b0101001000 = .absorb 0x48 ∧
  decode 0b0111111111 = .absorb 0xFF ∧
  decode 0b1000000000 = .final 0x00 ∧
  decode 0b1100000000 = .finalr 0x00 ∧
  decodeTableWord 16 0x161 = some (.absorb 0x61) ∧
  decodeTableWord 16 0x400 = none

/-- Rule R53: INIT, FINAL and FINALR behave as with `data = 0x00`, and ABSORB writes its byte unchanged into
`buf[fill]`. -/
def Obligations.DataFieldOnlyForAbsorb : Prop :=
  (∀ (d : Byte) (s : State),
    exec (.init d) s = exec (.init 0) s ∧
    exec (.final d) s = exec (.final 0) s ∧
    exec (.finalr d) s = exec (.finalr 0) s) ∧
  ∀ (d : Byte) (s t : State), s.fsm = .idle → exec (.absorb d) s = .next t →
    t.buf.read s.fill.toNat = some d

/-- Rule R58: the exact expansion of each pseudo-command into command words; during a WAIT the host holds
`cmd_valid = 0`. -/
def Obligations.PseudoCommandsExpand : Prop :=
  ∀ bytes : List Byte,
    let absorbs : List HostMove := bytes.map fun b => .command (0x100 + b.setWidth 10)
    (AsmCommand.absorbBytes bytes).expand = absorbs ∧
    (AsmCommand.absorbStr bytes).expand = absorbs ∧
    (AsmCommand.hash bytes).expand = [.command 0x000] ++ absorbs ++ [.command 0x200] ∧
    (AsmCommand.hashr bytes).expand = [.command 0x000] ++ absorbs ++ [.command 0x300] ∧
    AsmCommand.wait.expand = [.wait] ∧
    ∀ (s : State) (ms : List HostMove), s.host = .wait :: ms → s.pins.cmdValid = false ∧ s.pins.rst = false

/-! ### Reset -/

/-- Rules R34 and R117: after an edge with `rst = 1`, in any state and with any command on the port, the registers hold
their reset values, and `buf`, `W`, `a..e` and `dig` keep theirs. -/
def Obligations.ResetEdge : Prop :=
  ∀ (p : PortIn) (s : State), p.rst = true →
    clockEdge p s = .next { s with
      h := ⟨0x67452301, 0xEFCDAB89, 0x98BADCFE, 0x10325476, 0xC3D2E1F0⟩
      fill := 0
      total := 0
      t := 0
      fsm := .idle
      ret := .idle
      fkind := false
      digValid := false
      err := false }

/-- Rule R34: the state a run starts from holds the reset values of the registers that have one, its status vector is
zero (R29), and it is ready (R28). -/
def Obligations.RunStartsAtResetValues : Prop :=
  State.reset.h = iv ∧ State.reset.fill = 0 ∧ State.reset.total = 0 ∧ State.reset.t = 0 ∧
  State.reset.fsm = .idle ∧ State.reset.ret = .idle ∧ State.reset.fkind = false ∧
  State.reset.digValid = false ∧ State.reset.err = false ∧
  State.reset.status = 0 ∧ State.reset.cmdReady false = true

/-- Rule R120, at the transaction level: the state after a reset edge agrees with the state after INIT on `H`, `fill`,
`total`, `dig_valid`, `err` and the controller state, whatever the two states before them were. -/
def Obligations.ResetIsCreate : Prop :=
  ∀ (p : PortIn) (d : Byte) (s s' : State), p.rst = true → s'.Ready →
    ∃ t t', clockEdge p s = .next t ∧ exec (.init d) s' = .next t' ∧
      t.h = t'.h ∧ t.fill = t'.fill ∧ t.total = t'.total ∧ t.digValid = t'.digValid ∧ t.err = t'.err ∧
      t.fsm = t'.fsm

/-- Rule R118: while `rst = 1`, `cmd_ready = 0` and no command is accepted: the edge is that of a reset with no command on
the port. A command the host keeps is accepted at the next edge with `rst = 0`. -/
def Obligations.ResetAcceptsNothing : Prop :=
  ∀ (p : PortIn) (s : State), p.rst = true →
    s.cmdReady p.rst = false ∧ p.accepts s = false ∧ clockEdge p s = clockEdge .resetting s ∧
    ∃ t, clockEdge p s = .next t ∧ ∀ q : PortIn, q.rst = false → q.cmdValid = true → q.accepts t = true

/-! ### The four commands -/

/-- Rule R61: INIT in every state that takes commands, IDLE and DONE; every register not named keeps its value. -/
def Obligations.InitCreatesEngine : Prop :=
  ∀ (d : Byte) (s : State), s.Ready →
    exec (.init d) s = .next { s with
      h := iv, fill := 0, total := 0, digValid := false, err := false, fsm := .idle }

/-- Rule R62: ABSORB below the last byte of a block, at the last byte of a block (with its compression), and on a
consumed engine. -/
def Obligations.AbsorbTakesOneByte : Prop :=
  ∀ (d : Byte) (s : State),
    (s.fsm = .idle → s.fill < 63 →
      exec (.absorb d) s =
        .next { s with buf := s.buf.write s.fill.toNat d, fill := s.fill + 1, total := s.total + 1 }) ∧
    (s.fsm = .idle → s.fill = 63 →
      ∃ t, exec (.absorb d) s = .next t ∧
        t.h = compress s.h (tabulate 64 fun j => if j < 63 then s.buf.read j else d) ∧
        t.buf = s.buf.write 63 d ∧ t.fill = 0 ∧ t.total = s.total + 1 ∧
        t.fsm = .idle ∧ t.dig = s.dig ∧ t.digValid = s.digValid ∧ t.err = s.err) ∧
    (s.fsm = .done → exec (.absorb d) s = .next { s with err := true })

/-- Rules R63 and R65: FINAL compresses the padded blocks, writes the digest and consumes the engine; on a consumed
engine it is a CmdError. -/
def Obligations.FinalDigestsAndConsumes : Prop :=
  ∀ (d : Byte) (s : State),
    (s.fsm = .idle → s.fill ≤ 63 →
      ∃ t, exec (.final d) s = .next t ∧
        t.h = (finalBlocks s.fill.toNat s.buf.read s.total).foldl compress s.h ∧
        t.dig = t.h.h0 ++ t.h.h1 ++ t.h.h2 ++ t.h.h3 ++ t.h.h4 ∧
        t.digValid = true ∧ t.fsm = .done ∧ t.fill = 0 ∧ t.total = s.total ∧ t.err = s.err ∧
        (finalBlocks s.fill.toNat s.buf.read s.total).getLast? = some t.buf.block) ∧
    (s.fsm = .done → exec (.final d) s = .next { s with err := true })

/-- Rules R64 and R65: FINALR gives the digest FINAL gives from the same state and leaves a fresh engine; on a consumed
engine it is a CmdError. -/
def Obligations.FinalrDigestsAndResets : Prop :=
  ∀ (d : Byte) (s : State),
    (s.fsm = .idle → s.fill ≤ 63 →
      ∃ t u, exec (.finalr d) s = .next t ∧ exec (.final d) s = .next u ∧
        t.dig = u.dig ∧ t.buf = u.buf ∧
        t.dig = digestOf ((finalBlocks s.fill.toNat s.buf.read s.total).foldl compress s.h) ∧
        t.digValid = true ∧ t.h = iv ∧ t.total = 0 ∧ t.fill = 0 ∧ t.fsm = .idle ∧ t.err = s.err) ∧
    (s.fsm = .done → exec (.finalr d) s = .next { s with err := true })

/-- Rule R67: the trailer is `8 * total` modulo 2^64, which is the bit length exactly when `total < 2^61`; no flag
records a trailer that wraps. -/
def Obligations.TrailerIsBitLength : Prop :=
  ∀ total : Length,
    (trailer total).toNat = 8 * total.toNat % 2 ^ 64 ∧
    ((trailer total).toNat = 8 * total.toNat ↔ total.toNat < 2 ^ 61) ∧
    ∀ (d : Byte) (s t : State), s.fsm = .idle → s.total = total →
      exec (.final d) s = .next t ∨ exec (.finalr d) s = .next t → t.err = s.err

/-- Rules R101 and R110: a command other than INIT on a consumed engine sets `err` and leaves every other register,
every byte of the buffer, the digest and its valid flag as they were, and so does every further one. -/
def Obligations.CmdErrorChangesOnlyErr : Prop :=
  ∀ (i : Instr) (s : State), s.fsm = .done → (∀ d, i ≠ .init d) →
    exec i s = .next { s with err := true } ∧
    ∀ j, (∀ d, j ≠ .init d) → exec j { s with err := true } = .next { s with err := true }

/-- Rule R109: an accepted INIT, or reset, clears `err` and leaves DONE for IDLE with a fresh engine (R61, R117). -/
def Obligations.InitRecoversFromError : Prop :=
  ∀ (d : Byte) (p : PortIn) (s : State), s.fsm = .done → s.err = true → p.rst = true →
    ∃ t u, exec (.init d) s = .next t ∧ t.err = false ∧ t.fsm = .idle ∧ t.h = iv ∧ t.fill = 0 ∧ t.total = 0 ∧
      t.digValid = false ∧
      clockEdge p s = .next u ∧ u.err = false ∧ u.fsm = .idle ∧ u.h = iv ∧ u.fill = 0 ∧ u.total = 0 ∧
      u.digValid = false

/-- Rules R102 and R103: in IDLE no command raises an error or stops, however many bytes have been absorbed. -/
def Obligations.IdleCommandsNeverFail : Prop :=
  ∀ (i : Instr) (s : State), Inv s → s.fsm = .idle → ∃ t, exec i s = .next t ∧ t.err = false

/-- Rule R87, as the model has it (log entry 4): a command given to a busy block is not accepted and has no effect. -/
def Obligations.BusyBlockTakesNoCommand : Prop :=
  ∀ (i : Instr) (p : PortIn) (s : State), s.busy = true → exec i s = .next s ∧ p.accepts s = false

/-! ### Frames -/

/-- INIT's frame (R61): no byte of the buffer, no pipeline register, no digest bit and no move of the host changes. -/
def Obligations.InitFrame : Prop :=
  ∀ (d : Byte) (s t : State), exec (.init d) s = .next t →
    (∀ a, t.buf.read a = s.buf.read a) ∧
    t.work = s.work ∧ t.window = s.window ∧ t.t = s.t ∧ t.ret = s.ret ∧ t.fkind = s.fkind ∧ t.dig = s.dig ∧
    t.host = s.host

/-- ABSORB's frame (R62, R88): it stores one byte, at `fill`, and on a consumed engine none; the pipeline's registers
change only when the byte completes a block; the digest, its valid flag and `fkind` never change. -/
def Obligations.AbsorbFrame : Prop :=
  ∀ (d : Byte) (s t : State), exec (.absorb d) s = .next t →
    (∀ a, a ≠ s.fill.toNat → t.buf.read a = s.buf.read a) ∧
    (s.fsm = .done → ∀ a, t.buf.read a = s.buf.read a) ∧
    (s.fill ≠ 63 → t.h = s.h ∧ t.work = s.work ∧ t.window = s.window ∧ t.t = s.t ∧ t.ret = s.ret) ∧
    t.fkind = s.fkind ∧ t.dig = s.dig ∧ t.digValid = s.digValid ∧ t.fsm = s.fsm ∧ t.host = s.host ∧
    (s.fsm ≠ .done → t.err = s.err)

/-- The frame of FINAL and FINALR (R63 to R65): the bytes below `fill` stay when one block is enough, no byte outside
the buffer changes, FINAL keeps `total`, neither changes `err` on an engine that is not consumed, and on a consumed
engine nothing but `err` changes. -/
def Obligations.FinalizeFrame : Prop :=
  ∀ (i : Instr) (s t : State), isFinalize i = true → exec i s = .next t →
    (s.fill ≤ 55 → ∀ a, a < s.fill.toNat → t.buf.read a = s.buf.read a) ∧
    (∀ a, 64 ≤ a → t.buf.read a = s.buf.read a) ∧
    (∀ d, i = .final d → t.total = s.total) ∧
    (s.fsm ≠ .done → t.err = s.err) ∧
    (s.fsm = .done → t = { s with err := true }) ∧
    t.host = s.host

/-! ### Invariants -/

/-- The invariant holds in the state a run starts from. -/
def Obligations.ResetMeetsInv : Prop := Inv State.reset

/-- Every clock edge, with any pins, goes on to a next state and keeps the invariant: no rule writes outside
the buffer or meets the unused code of `ret` (R33). -/
def Obligations.ClockEdgeKeepsInv : Prop :=
  ∀ (p : PortIn) (s : State), Inv s → ∃ t, clockEdge p s = .next t ∧ Inv t

/-- Every step, as log entries 4 and 5 have it, goes on to a next state and keeps the invariant. -/
def Obligations.StepKeepsInv : Prop :=
  ∀ s : State, Inv s → ∃ t, step s = .next t ∧ Inv t

/-- Rule R33: at every clock edge reached from reset by any input sequence, (a) to (h) hold, and for (g) an edge that
enters FINISH is one of an ACCUM with RET_FINISH. -/
def Obligations.ControllerInvariantFromReset : Prop :=
  ∀ ps : List PortIn, ∃ s, runEdges ps State.reset = .next s ∧ ControllerInvariant s ∧
    ∀ (p : PortIn) (t : State), clockEdge p s = .next t → t.fsm = .finish → s.fsm = .accum ∧ s.ret = .finish

/-! ### The controller, edge by edge -/

/-- Rule R88: IDLE with no command, and with each command accepted. -/
def Obligations.IdleEdge : Prop :=
  ∀ (p : PortIn) (s : State), p.rst = false → s.fsm = .idle → s.fill ≤ 63 →
    (p.cmdValid = false → clockEdge p s = .next s) ∧
    (p.cmdValid = true → p.cmdOp = 0b00 →
      clockEdge p s = .next { s with h := iv, fill := 0, total := 0, digValid := false, err := false }) ∧
    (p.cmdValid = true → p.cmdOp = 0b01 →
      ∃ t, clockEdge p s = .next t ∧
        t = { s with buf := t.buf, total := s.total + 1, fill := s.fill + 1, ret := t.ret, fsm := t.fsm } ∧
        (∀ a, t.buf.read a = if a = s.fill.toNat then p.cmdData else s.buf.read a) ∧
        (t.ret, t.fsm) = if s.fill = 63 then (.idle, .load) else (s.ret, .idle)) ∧
    (p.cmdValid = true → p.cmdOp.getLsbD 1 = true →
      clockEdge p s = .next { s with fkind := p.cmdOp.getLsbD 0, digValid := false, fsm := .pad1 })

/-- Rule R89: PAD1. -/
def Obligations.FirstPadEdge : Prop :=
  ∀ (p : PortIn) (s : State), p.rst = false → s.fsm = .pad1 → s.fill ≤ 63 →
    ∃ t, clockEdge p s = .next t ∧
      t = { s with buf := t.buf, fill := t.fill, ret := t.ret, fsm := t.fsm } ∧
      (s.fill > 55 →
        t.fill = 64 ∧ t.ret = .pad2 ∧ t.fsm = .load ∧
        ∀ a, t.buf.read a =
          if a = s.fill.toNat then 0x80
          else if s.fill.toNat < a ∧ a ≤ 63 then 0
          else s.buf.read a) ∧
      (s.fill ≤ 55 →
        t.fill = s.fill + 1 ∧ t.ret = s.ret ∧ t.fsm = .pad2 ∧
        ∀ a, t.buf.read a = if a = s.fill.toNat then 0x80 else s.buf.read a)

/-- Rules R90 and R40: PAD2, with the big-endian trailer at 56..63. -/
def Obligations.SecondPadEdge : Prop :=
  ∀ (p : PortIn) (s : State), p.rst = false → s.fsm = .pad2 → s.fill ≤ 56 →
    ∃ t, clockEdge p s = .next t ∧
      t = { s with buf := t.buf, fill := 64, ret := .finish, fsm := .load } ∧
      ∀ a, t.buf.read a =
        if 56 ≤ a ∧ a ≤ 63 then (s.total <<< 3).extractLsb' (8 * (63 - a)) 8
        else if s.fill.toNat ≤ a ∧ a ≤ 55 then 0
        else s.buf.read a

/-- Rules R91 and R38: LOAD. -/
def Obligations.LoadEdge : Prop :=
  ∀ (p : PortIn) (s : State), p.rst = false → s.fsm = .load →
    clockEdge p s = .next { s with
      window := tabulate 16 fun j =>
        be32 (s.buf.read (4 * j)) (s.buf.read (4 * j + 1)) (s.buf.read (4 * j + 2)) (s.buf.read (4 * j + 3))
      work := ⟨s.h.h0, s.h.h1, s.h.h2, s.h.h3, s.h.h4⟩
      t := 0
      fill := 0
      fsm := .round }

/-- Rules R92 and R79: ROUND; every right-hand side reads the registers as they were before the edge. -/
def Obligations.RoundEdge : Prop :=
  ∀ (p : PortIn) (s : State), p.rst = false → s.fsm = .round →
    ∃ t, clockEdge p s = .next t ∧
      t = { s with work := t.work, window := t.window, t := s.t + 1, fsm := t.fsm } ∧
      t.work.a = rotl s.work.a 5 + mix s.t.toNat s.work.b s.work.c s.work.d + s.work.e +
        roundConstant s.t.toNat + s.window[0] ∧
      t.work.b = s.work.a ∧ t.work.c = rotl s.work.b 30 ∧ t.work.d = s.work.c ∧ t.work.e = s.work.d ∧
      (∀ (j : Nat) (h : j < 15), t.window[j] = s.window[j + 1]) ∧
      t.window[15] = rotl (s.window[13] ^^^ s.window[8] ^^^ s.window[2] ^^^ s.window[0]) 1 ∧
      t.fsm = if s.t = 79 then .accum else .round

/-- Rule R93: ACCUM, each word modulo 2^32, and where it goes next. -/
def Obligations.AccumEdge : Prop :=
  ∀ (p : PortIn) (s : State), p.rst = false → s.fsm = .accum → s.ret ≠ .unused →
    clockEdge p s = .next { s with
      h := ⟨s.h.h0 + s.work.a, s.h.h1 + s.work.b, s.h.h2 + s.work.c, s.h.h3 + s.work.d, s.h.h4 + s.work.e⟩
      fsm := if s.ret = .idle then .idle else if s.ret = .pad2 then .pad2 else .finish }

/-- Rules R94 and R39: FINISH of a FINAL and of a FINALR; the digest is that of the pre-edge `H`. -/
def Obligations.FinishEdge : Prop :=
  ∀ (p : PortIn) (s : State), p.rst = false → s.fsm = .finish →
    (s.fkind = false →
      clockEdge p s = .next { s with
        dig := s.h.h0 ++ s.h.h1 ++ s.h.h2 ++ s.h.h3 ++ s.h.h4, digValid := true, fsm := .done }) ∧
    (s.fkind = true →
      clockEdge p s = .next { s with
        dig := s.h.h0 ++ s.h.h1 ++ s.h.h2 ++ s.h.h3 ++ s.h.h4, digValid := true, fsm := .idle
        h := iv, total := 0, fill := 0 })

/-- Rule R95: DONE with no command, with INIT, and with any other command. -/
def Obligations.DoneEdge : Prop :=
  ∀ (p : PortIn) (s : State), p.rst = false → s.fsm = .done →
    (p.cmdValid = false → clockEdge p s = .next s) ∧
    (p.cmdValid = true → p.cmdOp = 0b00 →
      clockEdge p s = .next { s with
        h := iv, fill := 0, total := 0, digValid := false, err := false, fsm := .idle }) ∧
    (p.cmdValid = true → p.cmdOp ≠ 0b00 → clockEdge p s = .next { s with err := true })

/-- Rule R96: the writers of every register; at every other edge the register keeps its value. The host's moves are not
the controller's to change. -/
def Obligations.RegistersHold : Prop :=
  ∀ (p : PortIn) (s t : State), p.rst = false → clockEdge p s = .next t →
    let initAccepted := p.accepts s = true ∧ p.cmdOp = 0b00
    let absorbAccepted := s.fsm = .idle ∧ p.cmdValid = true ∧ p.cmdOp = 0b01
    let finalizeAccepted := s.fsm = .idle ∧ p.cmdValid = true ∧ p.cmdOp.getLsbD 1 = true
    (t.h ≠ s.h → s.fsm = .accum ∨ (s.fsm = .finish ∧ s.fkind = true) ∨ initAccepted) ∧
    (t.total ≠ s.total → absorbAccepted ∨ (s.fsm = .finish ∧ s.fkind = true) ∨ initAccepted) ∧
    (t.dig ≠ s.dig → s.fsm = .finish) ∧
    (t.err ≠ s.err → initAccepted ∨ (s.fsm = .done ∧ p.cmdValid = true ∧ p.cmdOp ≠ 0b00)) ∧
    (t.window ≠ s.window ∨ t.work ≠ s.work ∨ t.t ≠ s.t → s.fsm = .load ∨ s.fsm = .round) ∧
    (t.buf ≠ s.buf → absorbAccepted ∨ s.fsm = .pad1 ∨ s.fsm = .pad2) ∧
    (t.fill ≠ s.fill → absorbAccepted ∨ s.fsm = .pad1 ∨ s.fsm = .pad2 ∨ s.fsm = .load ∨
      (s.fsm = .finish ∧ s.fkind = true) ∨ initAccepted) ∧
    (t.ret ≠ s.ret → (absorbAccepted ∧ s.fill = 63) ∨ s.fsm = .pad1 ∨ s.fsm = .pad2) ∧
    (t.fkind ≠ s.fkind → finalizeAccepted) ∧
    (t.digValid ≠ s.digValid → finalizeAccepted ∨ s.fsm = .finish ∨ initAccepted) ∧
    (t.fsm ≠ s.fsm → s.busy = true ∨ p.accepts s = true) ∧
    t.host = s.host

/-- Rules R28, R29 and R97: the outputs, bit by bit; none depends on the command inputs. -/
def Obligations.StatusAndOutputs : Prop :=
  ∀ (s : State) (rst : Bool),
    ((s.outputs rst).cmdReady = true ↔ rst = false ∧ (s.fsm = .idle ∨ s.fsm = .done)) ∧
    (s.outputs rst).digO = s.dig ∧ (s.outputs rst).digValid = s.digValid ∧
    ((s.outputs rst).statusO.getLsbD 0 = true ↔ ¬(s.fsm = .idle ∨ s.fsm = .done)) ∧
    (s.outputs rst).statusO.getLsbD 1 = s.digValid ∧
    (s.outputs rst).statusO.getLsbD 2 = s.err ∧
    ((s.outputs rst).statusO.getLsbD 3 = true ↔ s.fsm = .done)

/-- Rule R99: at an edge that accepts no command, in a busy state or with `cmd_valid = 0`, the value of the command pins
makes no difference; a command withdrawn before its acceptance has issued nothing. -/
def Obligations.UnacceptedCommandHasNoEffect : Prop :=
  ∀ (p q : PortIn) (s : State), p.rst = false → q.rst = false → p.accepts s = false → q.accepts s = false →
    clockEdge p s = clockEdge q s

/-- Rule R26: what each edge does to `dig_valid`. -/
def Obligations.DigestValidFlag : Prop :=
  ∀ (p : PortIn) (s t : State), clockEdge p s = .next t →
    t.digValid =
      if p.rst then false
      else if s.fsm = .finish then true
      else if p.accepts s = true ∧ (p.cmdOp = 0b00 ∨ (s.fsm = .idle ∧ p.cmdOp.getLsbD 1 = true)) then false
      else s.digValid

/-- Rule R27: what each edge does to `err`. -/
def Obligations.ErrorFlag : Prop :=
  ∀ (p : PortIn) (s t : State), clockEdge p s = .next t →
    t.err =
      if p.rst then false
      else if p.accepts s = true ∧ p.cmdOp = 0b00 then false
      else if p.accepts s = true ∧ s.fsm = .done then true
      else s.err

/-- The model's choice (log entry 6), in states no run reaches (R33): a command that would write outside the buffer stops
by name, and so do the clocked rules that would, and ACCUM with the unused code of `ret` (U3). -/
def Obligations.UnreachedStatesStopByName : Prop :=
  ∀ (d : Byte) (p : PortIn) (s : State), p.rst = false →
    (s.fsm = .idle → s.fill ≥ 64 →
      exec (.absorb d) s = .fault .noSuchByte ∧ exec (.final d) s = .fault .noSuchByte ∧
      exec (.finalr d) s = .fault .noSuchByte) ∧
    (s.fsm = .idle → s.fill ≥ 64 → p.cmdValid = true → p.cmdOp = 0b01 → clockEdge p s = .fault .noSuchByte) ∧
    (s.fsm = .pad1 → s.fill ≥ 64 → clockEdge p s = .fault .noSuchByte) ∧
    (s.fsm = .accum → s.ret = .unused → clockEdge p s = .fault .retUnused)

/-! ### The compression transform -/

/-- Rules R75 and R76: the 80 schedule words of a block. -/
def Obligations.ScheduleRecurrence : Prop :=
  ∀ B : Block,
    (∀ (j : Nat) (h : j < 16),
      (schedule B).getD j 0 = be32 B[4 * j] B[4 * j + 1] B[4 * j + 2] B[4 * j + 3]) ∧
    ∀ i, 16 ≤ i → i ≤ 79 →
      (schedule B).getD i 0 =
        rotl ((schedule B).getD (i - 3) 0 ^^^ (schedule B).getD (i - 8) 0 ^^^ (schedule B).getD (i - 14) 0 ^^^
          (schedule B).getD (i - 16) 0) 1

/-- Rule R83: at the start of ROUND cycle `t`, `W[j] = w[t + j]` for every `j` with `t + j <= 79`. -/
def Obligations.WindowHoldsSchedule : Prop :=
  ∀ (B : Block) (t j : Nat) (h : j < 16), t + j ≤ 79 →
    (shiftWindow^[t] (tabulate 16 fun j => (schedule B).getD j 0))[j] = (schedule B).getD (t + j) 0

/-- Rules R77, R78 and R85: the mixing function and the constant of each round. -/
def Obligations.RoundFunctions : Prop :=
  ∀ (t : Nat) (b c d : Word), t ≤ 79 →
    (t ≤ 19 → mix t b c d = (b &&& c) ||| (~~~b &&& d) ∧ roundConstant t = 0x5A827999) ∧
    (20 ≤ t → t ≤ 39 → mix t b c d = b ^^^ c ^^^ d ∧ roundConstant t = 0x6ED9EBA1) ∧
    (40 ≤ t → t ≤ 59 →
      mix t b c d = (b &&& c) ||| (b &&& d) ||| (c &&& d) ∧ roundConstant t = 0x8F1BBCDC) ∧
    (60 ≤ t → mix t b c d = b ^^^ c ^^^ d ∧ roundConstant t = 0xCA62C1D6)

/-- Rule R84: the gate-level forms equal the mixing functions bit for bit. -/
def Obligations.GateFormsAgree : Prop :=
  ∀ b c d : Word,
    chooseGates b c d = (b &&& c) ||| (~~~b &&& d) ∧
    majorityGates b c d = (b &&& c) ||| (b &&& d) ||| (c &&& d)

/-- Rules R9, R79: `rotl` is the rotation of a 32-bit word, and a rotation by 30 to the left is one by 2 to the
right. -/
def Obligations.RotlIsRotation : Prop :=
  (∀ (x : Word) (n i : Nat), 0 < n → n < 32 → i < 32 →
    (rotl x n).getLsbD i = x.getLsbD ((i + 32 - n) % 32)) ∧
  ∀ x : Word, rotl x 30 = x.rotateRight 2

/-- Rules R74, R80 and R81: `Compress` runs the 80 rounds in order over a working copy and adds it onto the state. -/
def Obligations.CompressRunsEightyRounds : Prop :=
  ∀ (H : HashState) (B : Block), ∃ trace : Nat → Working,
    trace 0 = ⟨H.h0, H.h1, H.h2, H.h3, H.h4⟩ ∧
    (∀ t < 80, trace (t + 1) = round t (trace t) ((schedule B).getD t 0)) ∧
    compress H B =
      ⟨H.h0 + (trace 80).a, H.h1 + (trace 80).b, H.h2 + (trace 80).c, H.h3 + (trace 80).d, H.h4 + (trace 80).e⟩

/-- Rule R39: digest byte `k` is byte `k mod 4` of `H[k div 4]`, most significant byte first, and sits at
`dig[159-8k : 152-8k]`. -/
def Obligations.DigestIsBigEndian : Prop :=
  ∀ (H : HashState) (k : Nat), k < 20 →
    (digestOf H).extractLsb' (152 - 8 * k) 8 = (bytesBe32 (H.words.getD (k / 4) 0)).getD (k % 4) 0

/-! ### Refinement, timing and whole streams -/

/-- Rules R98 and R125, command by command. That the pipeline's own registers (`a..e`, `W`, `t`, `ret`, `fkind`) agree
too rests on log entry 8. The clocked controller, given a command at an edge that accepts it and any
pins without reset for the busy cycles of the timing table, ends in exactly the state of the command's transaction-level
meaning; until then it is busy, `dig` and `err` hold, and `dig_valid` is 0 for a finalize and holds otherwise. -/
def Obligations.ControllerRefinesCommands : Prop :=
  ∀ (i : Instr) (s : State) (ps : List PortIn), Inv s → s.Ready → NoReset ps → ps.length = busyCycles i s →
    runEdges (.present (encode i) :: ps) s = exec i s ∧
    ∀ k < ps.length, ∃ u, runEdges (.present (encode i) :: ps.take k) s = .next u ∧
      u.busy = true ∧ u.dig = s.dig ∧ u.err = s.err ∧
      u.digValid = if isFinalize i then false else s.digValid

/-- Rules R98 and R125: after any stream of commands, issued as soon as the block is ready for each, the registers of the
clocked controller equal those of the transaction level, and the stream has taken the edges of the timing table. That
the pipeline's own registers (`a..e`, `W`, `t`, `ret`, `fkind`) agree too rests on log entry 8. -/
def Obligations.ControllerRefinesStreams : Prop :=
  ∀ (is : List Instr) (s : State), Inv s → s.Ready →
    (∃ t, runCommands is s = .next t ∧ t.Ready ∧ Inv t) ∧
    runEdges (issueWhenReady is s) s = runCommands is s ∧
    (issueWhenReady is s).length = streamEdges is s

/-- Rule R125: the busy cycles of each command and condition, and the edges of the stream that absorbs `n` bytes. -/
def Obligations.TimingTable : Prop :=
  ∀ (d : Byte) (s : State), Inv s → s.Ready →
    busyCycles (.init d) s = 0 ∧
    (s.fsm = .idle → s.fill < 63 → busyCycles (.absorb d) s = 0) ∧
    (s.fsm = .idle → s.fill = 63 → busyCycles (.absorb d) s = 82) ∧
    (s.fsm = .idle → s.fill ≤ 55 → busyCycles (.final d) s = 85 ∧ busyCycles (.finalr d) s = 85) ∧
    (s.fsm = .idle → s.fill > 55 → busyCycles (.final d) s = 167 ∧ busyCycles (.finalr d) s = 167) ∧
    (s.fsm = .done → ∀ i, busyCycles i s = 0) ∧
    ∀ m : List Byte, streamEdges (.init d :: absorbAll m) s = 1 + m.length + 82 * (m.length / 64)

/-- Rule R126: the controller's states and flags, edge by edge, depend only on reset, on `cmd_valid` and `cmd_op`, and
on the controller's own registers: never on a data byte, on the buffer, on `H` or on `total`. -/
def Obligations.ControlIndependentOfData : Prop :=
  ∀ (ps qs : List PortIn) (s s' : State), Inv s → Inv s' → SameControl s s' → List.Forall₂ SamePort ps qs →
    ∃ t t', runEdges ps s = .next t ∧ runEdges qs s' = .next t' ∧ SameControl t t'

/-- Rules R87 and R105: unless reset, an accepted command runs to completion; from every state of the invariant the
block is ready within 167 edges, whatever the command port shows. -/
def Obligations.BusyBlockBecomesReady : Prop :=
  ∀ (s : State) (ps : List PortIn), Inv s → NoReset ps → ps.length = 167 →
    ∃ k ≤ 167, ∃ t, runEdges (ps.take k) s = .next t ∧ t.Ready

/-- Rules R73 and R119: the stream that takes a message and ends in FINAL or FINALR ends with the digest of the padded
message, from every ready state by way of INIT, and without INIT after a reset edge in any state whatever, also one
that aborts a command. -/
def Obligations.StreamHashesMessage : Prop :=
  (∀ n, (n + 1 + padZeroes n) % 64 = 56 ∧ ∀ k, (n + 1 + k) % 64 = 56 → padZeroes n ≤ k) ∧
  ∀ (d : Byte) (m : List Byte) (last : Instr) (s : State), m.length < 2 ^ 61 → isFinalize last = true →
    (Inv s → s.Ready →
      ∃ t, runCommands (.init d :: absorbAll m ++ [last]) s = .next t ∧ t.dig = hashMessage m ∧ t.digValid = true) ∧
    (∀ p : PortIn, p.rst = true →
      ∃ u t, clockEdge p s = .next u ∧ u.Ready ∧ runCommands (absorbAll m ++ [last]) u = .next t ∧
        t.dig = hashMessage m ∧ t.digValid = true)

/-- Rule R68: the compressions of a message of `n` bytes absorbed after INIT or FINALR and then finalized. -/
def Obligations.CompressionCount : Prop :=
  ∀ (m : List Byte) (last : Instr) (s : State),
    isFinalize last = true → Inv s → s.fsm = .idle → s.fill = 0 → s.total = 0 →
    streamCompressions (absorbAll m) s = m.length / 64 ∧
    streamCompressions (absorbAll m ++ [last]) s =
      m.length / 64 + (if m.length % 64 > 55 then 2 else 1) ∧
    streamCompressions (absorbAll m ++ [last]) s = (m.length + 8) / 64 + 1

/-- Rule R69: however the host groups the bytes, with any number of WAIT cycles before each chunk and before what
follows, the run ends in the state that absorbing the whole sequence without a gap and going on ends in, and so does
the clocked port fed with those gaps. The moves of a run are the model's (log entries 4 and 5), and that the port
leaves the pipeline's own registers so rests on log entry 8. -/
def Obligations.IncrementalEquivalence : Prop :=
  ∀ (chunks : List (Nat × List Byte)) (gap : Nat) (rest : List Instr) (s : State), Inv s → s.Ready → s.host = [] →
    let moves := chunks.flatMap (fun c => List.replicate c.1 HostMove.wait ++ absorbMoves c.2) ++
      (List.replicate gap .wait ++ rest.map assembled)
    ∃ t, runCommands (absorbAll (chunks.flatMap (·.2)) ++ rest) s = .next t ∧
      Sys2Proof.core.run moves.length (s.withProgram moves) = .next t ∧
      runEdges (issueMoves moves s) s = .next t

/-- Rules R50 and R71: two engines that agree on `H`, `fill`, `total`, `err`, the controller state and the bytes below
`fill` stay so under every command stream, and the first digest of the stream is the same: the stale bytes of the
buffer, the old digest and the pipeline's registers never matter. If the host's observation is the same before the
stream, it is the same after it (R123, R127). The same edge by edge (R35): after a reset edge in any two states, the
same pins at every later edge give the same `cmd_ready` and the same observation, whatever `buf`, `W`, `a..e` and `dig`
held before. -/
def Obligations.StaleStateNeverMatters : Prop :=
  (∀ (is : List Instr) (s s' : State), Inv s → Inv s' → s.Ready → SameEngine s s' →
    firstDigest is s = firstDigest is s' ∧
    ∃ t t', runCommands is s = .next t ∧ runCommands is s' = .next t' ∧ SameEngine t t' ∧
      (s.observe = s'.observe → t.observe = t'.observe)) ∧
  ∀ (p : PortIn) (ps : List PortIn) (s s' : State), p.rst = true →
    ∃ t t', runEdges (p :: ps) s = .next t ∧ runEdges (p :: ps) s' = .next t' ∧
      t.observe = t'.observe ∧ ∀ rst, t.cmdReady rst = t'.cmdReady rst

/-- Rule R70: the state after a FINALR and the state after an INIT agree on `H`, `fill`, `total`, `err` and `cons`, and
every later stream that contains a finalize produces the same first digest from both. -/
def Obligations.FinalrIsEquivalentToInit : Prop :=
  ∀ (d : Byte) (s s' : State), Inv s → Inv s' → s.fsm = .idle → s'.Ready →
    ∃ t t', exec (.finalr d) s = .next t ∧ exec (.init d) s' = .next t' ∧
      t.h = t'.h ∧ t.fill = t'.fill ∧ t.total = t'.total ∧ t.err = t'.err ∧ t.consumed = t'.consumed ∧
      ∀ is : List Instr, (∃ i ∈ is, isFinalize i = true) →
        ∃ dig, firstDigest is t = some dig ∧ firstDigest is t' = some dig

/-! ### Steps -/

/-- A step of a ready block whose host presents a command word runs the command the word decodes to, as the next move
is taken from the host (R60, R87); a placed word is run by the very next step. That a step runs a whole command, and
that the host's moves stand in State, is the model's choice (log entries 4 and 5). -/
def Obligations.StepRunsDecodedCommand : Prop :=
  (∀ (w : CommandWord) (ms : List HostMove) (s : State), s.Ready → s.host = .command w :: ms →
    step s = exec (decode w) { s with host := ms }) ∧
  ∀ (i : Instr) (s : State), s.Ready → step (s.withFetchWord 16 (encode i).toNat) = exec i s

/-- The model's choice (log entries 4 and 5): a step at which no command is accepted is one clock edge, a reset or a WAIT
of the host's moves lasts one edge, and a host with no move presents nothing. That a command is not accepted by a busy
block and is held until it is, is R87 and R122. -/
def Obligations.StepWithoutCommandIsClockEdge : Prop :=
  ∀ s : State,
    (s.host = [] → step s = clockEdge .quiet s) ∧
    (∀ ms, s.host = .wait :: ms → step s = clockEdge .quiet { s with host := ms }) ∧
    (∀ ms, s.host = .reset :: ms → step s = clockEdge .resetting { s with host := ms }) ∧
    (∀ w ms, s.host = .command w :: ms → s.busy = true → step s = clockEdge (.present w) s)

/-- Rules R60 and R127: a run from a ready state, with the command words of a stream as the host's moves, is the fold of
the commands' meanings, and ends ready. That a step runs a whole command, and that the host's moves stand in State, is
the model's choice (log entries 4 and 5). -/
def Obligations.RunIsFoldOfCommands : Prop :=
  ∀ (is : List Instr) (s : State), Inv s → s.Ready → s.host = [] →
    ∃ t, Sys2Proof.core.run is.length (s.withProgram (is.map assembled)) = .next t ∧
      runCommands is s = .next t ∧ t.Ready ∧ t.host = []
end

