-- ==== Sys2Proof/Laws/Bits.lean ====
section
/-!
SUPPORT. The small lemmas of the helpers in Machine/Bits.lean and Machine/Compression.lean.
-/

namespace Sys2Proof.Machine

@[simp] theorem tabulate_getElem {α : Type} (n : Nat) (f : Nat → α) (i : Nat) (h : i < n) :
    (tabulate n f)[i] = f i := by
  simp [tabulate]

/-- Two tabulations agree when their entries do. -/
theorem tabulate_congr {α : Type} {n : Nat} {f g : Nat → α} (h : ∀ i < n, f i = g i) :
    tabulate n f = tabulate n g := by
  apply Vector.ext
  intro i hi
  simpa using h i hi

/-- A vector is the tabulation of its entries. -/
theorem eq_tabulate {α : Type} {n : Nat} {v : Vector α n} {f : Nat → α}
    (h : ∀ (i : Nat) (hi : i < n), v[i] = f i) : v = tabulate n f := by
  apply Vector.ext
  intro i hi
  simpa using h i hi

@[simp] theorem byteAt_of_lt (B : Block) (k : Nat) (h : k < 64) : byteAt B k = B[k] := by
  simp [byteAt, h]

@[simp] theorem byteAt_tabulate (f : Nat → Byte) (k : Nat) (h : k < 64) :
    byteAt (tabulate 64 f) k = f k := by
  simp [byteAt, h]

@[simp] theorem blockWords_length (B : Block) : (blockWords B).length = 16 := by
  simp [blockWords]

@[simp] theorem scheduleTo_length (B : Block) (n : Nat) : (scheduleTo B n).length = 16 + n := by
  induction n with
  | zero => simp [scheduleTo]
  | succ n ih => simp [scheduleTo, extendSchedule, ih, Nat.add_assoc]

@[simp] theorem schedule_length (B : Block) : (schedule B).length = 80 := by
  simp [schedule]

/-- Extending the schedule keeps the words it already has. -/
theorem scheduleTo_getD_succ (B : Block) (n i : Nat) (h : i < 16 + n) :
    (scheduleTo B (n + 1)).getD i 0 = (scheduleTo B n).getD i 0 := by
  rw [scheduleTo, extendSchedule, List.getD_append _ _ _ _ (by simpa using h)]

/-- Extending the schedule by any number of words keeps the words it already has. -/
theorem scheduleTo_getD_add (B : Block) (n m i : Nat) (h : i < 16 + n) :
    (scheduleTo B (n + m)).getD i 0 = (scheduleTo B n).getD i 0 := by
  induction m with
  | zero => rfl
  | succ m ih => rw [← Nat.add_assoc, scheduleTo_getD_succ B (n + m) i (by omega), ih]

/-- The word an extension appends. -/
theorem scheduleTo_getD_last (B : Block) (n : Nat) :
    (scheduleTo B (n + 1)).getD (16 + n) 0 =
      rotl ((scheduleTo B n).getD (16 + n - 3) 0 ^^^ (scheduleTo B n).getD (16 + n - 8) 0 ^^^
        (scheduleTo B n).getD (16 + n - 14) 0 ^^^ (scheduleTo B n).getD (16 + n - 16) 0) 1 := by
  simp [scheduleTo, extendSchedule]

@[simp] theorem roundsTo_zero (w : List Word) (x : Working) : roundsTo w x 0 = x := rfl

@[simp] theorem roundsTo_succ (w : List Word) (x : Working) (t : Nat) :
    roundsTo w x (t + 1) = round t (roundsTo w x t) (w.getD t 0) := rfl

end Sys2Proof.Machine
end

