-- ==== Sys2Proof/Laws/Memory.lean ====
section
/-!
SUPPORT. The laws of the input buffer: a read after a write, every operation keeps the canonical form, canonical
buffers that read alike are equal, and what reading a whole block says.
-/

namespace Sys2Proof.Machine

@[simp] theorem Memory.read_nil (i : Nat) : Memory.read [] i = Memory.unlisted := rfl

/-! ### One byte -/

theorem Memory.read_put (m : Memory) (i : Nat) (v : Byte) (j : Nat) :
    (Memory.put m i v).read j = if j = i then v else Memory.read m j := by
  induction m with
  | nil => simp [Memory.put, Memory.read]
  | cons c m ih =>
    obtain ⟨a, b⟩ := c
    simp only [Memory.put]
    split
    · simp [Memory.read]
    · split
      · simp only [Memory.read]
        grind
      · simp only [Memory.read, ih]
        grind

theorem Memory.read_unlist (m : Memory) (i j : Nat) :
    (Memory.unlist m i).read j = if j = i then Memory.unlisted else Memory.read m j := by
  induction m with
  | nil => simp [Memory.unlist]
  | cons c m ih =>
    obtain ⟨a, b⟩ := c
    simp only [Memory.unlist, List.filter_cons] at ih ⊢
    split
    · simp only [Memory.read, ih]
      grind
    · simp only [ih, Memory.read]
      grind

/-- A read after a write: the written byte at its index, every other byte as before. -/
theorem Memory.read_write (m : Memory) (i : Nat) (v : Byte) (j : Nat) :
    (Memory.write m i v).read j = if j = i then v else Memory.read m j := by
  unfold Memory.write
  split
  · rename_i h
    rw [Memory.read_unlist, h]
  · exact Memory.read_put m i v j

@[simp] theorem Memory.read_write_same (m : Memory) (i : Nat) (v : Byte) :
    (Memory.write m i v).read i = v := by
  simp [Memory.read_write]

@[simp] theorem Memory.read_write_other (m : Memory) (i : Nat) (v : Byte) (j : Nat) (h : j ≠ i) :
    (Memory.write m i v).read j = Memory.read m j := by
  simp [Memory.read_write, h]

/-- The entries of a memory after a byte is listed. -/
theorem Memory.mem_put {m : Memory} {i : Nat} {v : Byte} {c : Host.Cell} (h : c ∈ Memory.put m i v) :
    c = (i, v) ∨ c ∈ m := by
  induction m with
  | nil => simpa [Memory.put] using h
  | cons d m ih =>
    obtain ⟨a, b⟩ := d
    simp only [Memory.put] at h
    split at h
    · simpa using h
    · split at h
      · simp only [List.mem_cons] at h ⊢
        tauto
      · simp only [List.mem_cons] at h ⊢
        rcases h with h | h
        · tauto
        · rcases ih h with h | h <;> tauto

/-- Listing a byte keeps the indices in rising order. -/
theorem Memory.pairwise_put {m : Memory} (hp : m.Pairwise fun x y => x.1 < y.1) (i : Nat) (v : Byte) :
    (Memory.put m i v).Pairwise fun x y => x.1 < y.1 := by
  induction m with
  | nil => simp [Memory.put]
  | cons d m ih =>
    obtain ⟨a, b⟩ := d
    rw [List.pairwise_cons] at hp
    simp only [Memory.put]
    split
    · rename_i hlt
      refine List.pairwise_cons.2 ⟨fun c hc => ?_, List.pairwise_cons.2 hp⟩
      rcases List.mem_cons.1 hc with rfl | hc
      · exact hlt
      · exact lt_trans hlt (hp.1 c hc)
    · split
      · rename_i heq
        subst heq
        exact List.pairwise_cons.2 ⟨fun c hc => hp.1 c hc, hp.2⟩
      · refine List.pairwise_cons.2 ⟨fun c hc => ?_, ih hp.2⟩
        rcases Memory.mem_put hc with rfl | hc
        · show a < i
          omega
        · exact hp.1 c hc

/-- A write to an index of the buffer keeps the canonical form. -/
theorem Memory.wf_write {m : Memory} (hm : Memory.wf m) {i : Nat} (hi : i < 64) (v : Byte) :
    Memory.wf (Memory.write m i v) := by
  unfold Memory.write
  split
  · exact ⟨hm.1.filter _, fun c hc => hm.2 c (List.mem_filter.1 hc).1⟩
  · rename_i hv
    refine ⟨Memory.pairwise_put hm.1 i v, fun c hc => ?_⟩
    rcases Memory.mem_put hc with rfl | hc
    · exact ⟨hi, hv⟩
    · exact hm.2 c hc

/-- An index below every entry is unlisted. -/
theorem Memory.read_of_lt {m : Memory} {j : Nat} (h : ∀ c ∈ m, j < c.1) : Memory.read m j = Memory.unlisted := by
  induction m with
  | nil => rfl
  | cons d m ih =>
    obtain ⟨a, b⟩ := d
    have : j ≠ a := (h (a, b) (by simp)).ne
    simp only [Memory.read, this, if_false]
    exact ih fun c hc => h c (by simp [hc])

/-- Canonical memories that read alike are equal. -/
theorem Memory.ext_of_wf {m m' : Memory} (hm : Memory.wf m) (hm' : Memory.wf m')
    (h : ∀ j, Memory.read m j = Memory.read m' j) : m = m' := by
  induction m generalizing m' with
  | nil =>
    cases m' with
    | nil => rfl
    | cons d m' =>
      have := h d.1
      simp only [Memory.read, if_true] at this
      exact absurd this.symm (hm'.2 d (by simp)).2
  | cons c m ih =>
    obtain ⟨a, b⟩ := c
    obtain ⟨hlt, hp⟩ := List.pairwise_cons.1 hm.1
    have hb : b ≠ Memory.unlisted := (hm.2 (a, b) (by simp)).2
    cases m' with
    | nil =>
      have := h a
      simp only [Memory.read, if_true] at this
      exact absurd this hb
    | cons d m' =>
      obtain ⟨a', b'⟩ := d
      obtain ⟨hlt', hp'⟩ := List.pairwise_cons.1 hm'.1
      have hb' : b' ≠ Memory.unlisted := (hm'.2 (a', b') (by simp)).2
      have haa : a = a' := by
        rcases Nat.lt_trichotomy a a' with hh | hh | hh
        · have := h a
          rw [Memory.read_of_lt (m := (a', b') :: m') (j := a) fun c hc => ?_] at this
          · simp only [Memory.read, if_true] at this
            exact absurd this hb
          · rcases List.mem_cons.1 hc with rfl | hc
            · exact hh
            · exact hh.trans (hlt' c hc)
        · exact hh
        · have := h a'
          rw [Memory.read_of_lt (m := (a, b) :: m) (j := a') fun c hc => ?_] at this
          · simp only [Memory.read, if_true] at this
            exact absurd this.symm hb'
          · rcases List.mem_cons.1 hc with rfl | hc
            · exact hh
            · exact hh.trans (hlt c hc)
      subst haa
      have hbb : b = b' := by simpa [Memory.read] using h a
      subst hbb
      congr 1
      refine ih ⟨hp, fun c hc => hm.2 c (by simp [hc])⟩ ⟨hp', fun c hc => hm'.2 c (by simp [hc])⟩ fun j => ?_
      by_cases hj : j = a
      · subst hj
        rw [Memory.read_of_lt fun c hc => hlt c hc, Memory.read_of_lt fun c hc => hlt' c hc]
      · simpa [Memory.read, hj] using h j

/-! ### Runs of bytes -/

/-- What a run of writes leaves at an index. -/
theorem Memory.read_writeBytes (bs : List Byte) (m : Memory) (i j : Nat) :
    (Memory.writeBytes m i bs).read j =
      if i ≤ j ∧ j < i + bs.length then bs.getD (j - i) 0 else Memory.read m j := by
  induction bs generalizing m i with
  | nil => simp [Memory.writeBytes]
  | cons b bs ih =>
    rw [Memory.writeBytes, ih, Memory.read_write]
    by_cases h1 : i + 1 ≤ j ∧ j < i + 1 + bs.length
    · have h2 : i ≤ j ∧ j < i + (b :: bs).length := by
        simp only [List.length_cons]
        omega
      have h3 : j - i = (j - (i + 1)) + 1 := by omega
      rw [if_pos h1, if_pos h2, h3, List.getD_cons_succ]
    · rw [if_neg h1]
      by_cases h2 : j = i
      · subst h2
        simp
      · have h3 : ¬ (i ≤ j ∧ j < i + (b :: bs).length) := by
          simp only [List.length_cons]
          omega
        rw [if_neg h2, if_neg h3]

/-- A run of writes inside the buffer keeps the canonical form. -/
theorem Memory.wf_writeBytes (bs : List Byte) {m : Memory} (hm : Memory.wf m) {i : Nat}
    (hi : i + bs.length ≤ 64) : Memory.wf (Memory.writeBytes m i bs) := by
  induction bs generalizing m i with
  | nil => exact hm
  | cons b bs ih =>
    simp only [List.length_cons] at hi
    exact ih (Memory.wf_write hm (by omega) b) (by omega)

/-- What a zero fill leaves at an index. -/
theorem Memory.read_zeroes (m : Memory) (lo n j : Nat) :
    (Memory.zeroes m lo n).read j = if lo ≤ j ∧ j < lo + n then 0 else Memory.read m j := by
  rw [Memory.zeroes, Memory.read_writeBytes, List.length_replicate]
  split
  · rw [List.getD_eq_getElem?_getD, List.getElem?_replicate, if_pos (by omega), Option.getD_some]
  · rfl

/-- A zero fill inside the buffer keeps the canonical form. -/
theorem Memory.wf_zeroes {m : Memory} (hm : Memory.wf m) {lo n : Nat} (h : lo + n ≤ 64) :
    Memory.wf (Memory.zeroes m lo n) :=
  Memory.wf_writeBytes _ hm (by simpa using h)

/-- A canonical memory lists no byte outside the buffer. -/
theorem Memory.read_of_ge {m : Memory} (hm : Memory.wf m) {j : Nat} (hj : 64 ≤ j) :
    Memory.read m j = Memory.unlisted := by
  induction m with
  | nil => rfl
  | cons d m ih =>
    obtain ⟨a, b⟩ := d
    have ha : a < 64 := (hm.2 (a, b) (by simp)).1
    have : j ≠ a := by omega
    simp only [Memory.read, this, if_false]
    exact ih ⟨(List.pairwise_cons.1 hm.1).2, fun c hc => hm.2 c (by simp [hc])⟩

/-- What PAD1's zero fill leaves at an index. -/
theorem read_zeroAfter (p : Nat) (m : Memory) (j : Nat) :
    (zeroAfter p m).read j = if p < j ∧ j < 64 then 0 else m.read j := by
  rw [zeroAfter, Memory.read_zeroes]
  by_cases h : p < j ∧ j < 64
  · rw [if_pos h, if_pos (by omega)]
  · rw [if_neg h, if_neg (by omega)]

theorem wf_zeroAfter {p : Nat} {m : Memory} (hm : m.wf) (hp : p < 64) : (zeroAfter p m).wf :=
  Memory.wf_zeroes hm (by omega)

@[simp] theorem bytesBe64_length (v : Length) : (bytesBe64 v).length = 8 := rfl

/-- What PAD2's writes leave at an index, for a fill-count that leaves room for the trailer. -/
theorem read_writeTrailer {q : Nat} (hq : q ≤ 56) (total : Length) (m : Memory) (j : Nat) :
    (writeTrailer q total m).read j =
      if 56 ≤ j ∧ j < 64 then (bytesBe64 (trailer total)).getD (j - 56) 0
      else if q ≤ j ∧ j < 56 then 0
      else m.read j := by
  rw [writeTrailer, Memory.read_writeBytes, Memory.read_zeroes]
  have : Config.trailerOffset = 56 := rfl
  rw [this, bytesBe64_length, show q + (56 - q) = 56 by omega]

theorem wf_writeTrailer {q : Nat} {total : Length} {m : Memory} (hm : m.wf) (hq : q ≤ 56) :
    (writeTrailer q total m).wf :=
  Memory.wf_writeBytes _ (Memory.wf_zeroes hm (by omega)) (by simp)

/-! ### The whole block -/

@[simp] theorem Memory.block_getElem (m : Memory) (j : Nat) (h : j < 64) : (Memory.block m)[j] = Memory.read m j := by
  simp [Memory.block]

/-- A buffer whose 64 bytes are those of a tabulated block is that block. -/
theorem Memory.block_eq_tabulate {m : Memory} {f : Nat → Byte} (h : ∀ j < 64, Memory.read m j = f j) :
    Memory.block m = tabulate 64 f :=
  tabulate_congr h

/-- LOAD's sixteen word reads are the first sixteen schedule words of the block (R38, R75). -/
theorem Memory.words_eq (m : Memory) : Memory.words m = tabulate 16 fun j => (blockWords (Memory.block m)).getD j 0 := by
  refine tabulate_congr fun j hj => ?_
  simp only [Memory.read32, blockWords, List.getD_eq_getElem?_getD, List.getElem?_map, List.getElem?_range hj,
    Option.map_some, Option.getD_some, Memory.block]
  rw [byteAt_tabulate _ _ (by omega), byteAt_tabulate _ _ (by omega), byteAt_tabulate _ _ (by omega),
    byteAt_tabulate _ _ (by omega)]

end Sys2Proof.Machine
end

