-- ==== Sys2Proof/Laws/PerInstr.lean ====
section
/-!
SUPPORT. Facts about every command, proved constructor by constructor.
-/

namespace Sys2Proof

/-- The `op` field of a word put together from its fields (R51). -/
@[simp] theorem commandOp_append (op : BitVec 2) (data : Byte) : commandOp (op ++ data) = op := by
  apply BitVec.eq_of_getLsbD_eq
  intro i hi
  unfold commandOp
  rw [BitVec.getLsbD_extractLsb', BitVec.getLsbD_append]
  simp [hi]

/-- The `data` field of a word put together from its fields (R51). -/
@[simp] theorem commandData_append (op : BitVec 2) (data : Byte) : commandData (op ++ data) = data := by
  apply BitVec.eq_of_getLsbD_eq
  intro i hi
  unfold commandData
  rw [BitVec.getLsbD_extractLsb', BitVec.getLsbD_append]
  simp [hi]

/-- Decoding an encoded command looks at its own two fields. -/
theorem decode_encode_fields (i : Instr) : decode (encode i) = decodeFields i.op i.data := by
  simp [decode, encode]

/-- The encoding of a command is its `op` field above its `data` field. -/
theorem encode_eq (i : Instr) : encode i = i.op ++ i.data := rfl

end Sys2Proof

/-! ### RoundTrip: decoding the encoding gives the command back -/

namespace Sys2Proof.Laws.RoundTrip

/-- What the family says of a command: decoding its word gives it back (R51, R52). -/
def Statement (i : Instr) : Prop := decode (encode i) = i

theorem init (reserved : Byte) : Statement (.init reserved) := by
  rw [Statement, decode_encode_fields]
  rfl

theorem absorb (d : Byte) : Statement (.absorb d) := by
  rw [Statement, decode_encode_fields]
  rfl

theorem final (reserved : Byte) : Statement (.final reserved) := by
  rw [Statement, decode_encode_fields]
  rfl

theorem finalr (reserved : Byte) : Statement (.finalr reserved) := by
  rw [Statement, decode_encode_fields]
  rfl

end Sys2Proof.Laws.RoundTrip
end

