-- ==== Sys2Proof/Laws/State.lean ====
section
/-!
SUPPORT. What each named update of the state does to each field, so that no later proof unfolds a record update.
-/

namespace Sys2Proof.Machine

/-! ### create -/

@[simp] theorem create_h (s : State) : (create s).h = iv := rfl
@[simp] theorem create_buf (s : State) : (create s).buf = s.buf := rfl
@[simp] theorem create_fill (s : State) : (create s).fill = 0 := rfl
@[simp] theorem create_total (s : State) : (create s).total = 0 := rfl
@[simp] theorem create_work (s : State) : (create s).work = s.work := rfl
@[simp] theorem create_window (s : State) : (create s).window = s.window := rfl
@[simp] theorem create_t (s : State) : (create s).t = s.t := rfl
@[simp] theorem create_fsm (s : State) : (create s).fsm = .idle := rfl
@[simp] theorem create_ret (s : State) : (create s).ret = s.ret := rfl
@[simp] theorem create_fkind (s : State) : (create s).fkind = s.fkind := rfl
@[simp] theorem create_dig (s : State) : (create s).dig = s.dig := rfl
@[simp] theorem create_digValid (s : State) : (create s).digValid = false := rfl
@[simp] theorem create_err (s : State) : (create s).err = false := rfl
@[simp] theorem create_host (s : State) : (create s).host = s.host := rfl

/-! ### raiseCmdError -/

@[simp] theorem raiseCmdError_h (s : State) : (raiseCmdError s).h = s.h := rfl
@[simp] theorem raiseCmdError_buf (s : State) : (raiseCmdError s).buf = s.buf := rfl
@[simp] theorem raiseCmdError_fill (s : State) : (raiseCmdError s).fill = s.fill := rfl
@[simp] theorem raiseCmdError_total (s : State) : (raiseCmdError s).total = s.total := rfl
@[simp] theorem raiseCmdError_work (s : State) : (raiseCmdError s).work = s.work := rfl
@[simp] theorem raiseCmdError_window (s : State) : (raiseCmdError s).window = s.window := rfl
@[simp] theorem raiseCmdError_t (s : State) : (raiseCmdError s).t = s.t := rfl
@[simp] theorem raiseCmdError_fsm (s : State) : (raiseCmdError s).fsm = s.fsm := rfl
@[simp] theorem raiseCmdError_ret (s : State) : (raiseCmdError s).ret = s.ret := rfl
@[simp] theorem raiseCmdError_fkind (s : State) : (raiseCmdError s).fkind = s.fkind := rfl
@[simp] theorem raiseCmdError_dig (s : State) : (raiseCmdError s).dig = s.dig := rfl
@[simp] theorem raiseCmdError_digValid (s : State) : (raiseCmdError s).digValid = s.digValid := rfl
@[simp] theorem raiseCmdError_err (s : State) : (raiseCmdError s).err = true := rfl
@[simp] theorem raiseCmdError_host (s : State) : (raiseCmdError s).host = s.host := rfl

/-! ### hardReset -/

@[simp] theorem hardReset_h (s : State) : (hardReset s).h = iv := rfl
@[simp] theorem hardReset_buf (s : State) : (hardReset s).buf = s.buf := rfl
@[simp] theorem hardReset_fill (s : State) : (hardReset s).fill = 0 := rfl
@[simp] theorem hardReset_total (s : State) : (hardReset s).total = 0 := rfl
@[simp] theorem hardReset_work (s : State) : (hardReset s).work = s.work := rfl
@[simp] theorem hardReset_window (s : State) : (hardReset s).window = s.window := rfl
@[simp] theorem hardReset_t (s : State) : (hardReset s).t = 0 := rfl
@[simp] theorem hardReset_fsm (s : State) : (hardReset s).fsm = .idle := rfl
@[simp] theorem hardReset_ret (s : State) : (hardReset s).ret = .idle := rfl
@[simp] theorem hardReset_fkind (s : State) : (hardReset s).fkind = false := rfl
@[simp] theorem hardReset_dig (s : State) : (hardReset s).dig = s.dig := rfl
@[simp] theorem hardReset_digValid (s : State) : (hardReset s).digValid = false := rfl
@[simp] theorem hardReset_err (s : State) : (hardReset s).err = false := rfl
@[simp] theorem hardReset_host (s : State) : (hardReset s).host = s.host := rfl

/-! ### nextMove -/

@[simp] theorem nextMove_h (s : State) : (s.nextMove).h = s.h := rfl
@[simp] theorem nextMove_buf (s : State) : (s.nextMove).buf = s.buf := rfl
@[simp] theorem nextMove_fill (s : State) : (s.nextMove).fill = s.fill := rfl
@[simp] theorem nextMove_total (s : State) : (s.nextMove).total = s.total := rfl
@[simp] theorem nextMove_work (s : State) : (s.nextMove).work = s.work := rfl
@[simp] theorem nextMove_window (s : State) : (s.nextMove).window = s.window := rfl
@[simp] theorem nextMove_t (s : State) : (s.nextMove).t = s.t := rfl
@[simp] theorem nextMove_fsm (s : State) : (s.nextMove).fsm = s.fsm := rfl
@[simp] theorem nextMove_ret (s : State) : (s.nextMove).ret = s.ret := rfl
@[simp] theorem nextMove_fkind (s : State) : (s.nextMove).fkind = s.fkind := rfl
@[simp] theorem nextMove_dig (s : State) : (s.nextMove).dig = s.dig := rfl
@[simp] theorem nextMove_digValid (s : State) : (s.nextMove).digValid = s.digValid := rfl
@[simp] theorem nextMove_err (s : State) : (s.nextMove).err = s.err := rfl
@[simp] theorem nextMove_host (s : State) : (s.nextMove).host = s.host.drop 1 := rfl

/-! ### place -/

@[simp] theorem place_h (s : State) (w : CommandWord) : (s.place w).h = s.h := rfl
@[simp] theorem place_buf (s : State) (w : CommandWord) : (s.place w).buf = s.buf := rfl
@[simp] theorem place_fill (s : State) (w : CommandWord) : (s.place w).fill = s.fill := rfl
@[simp] theorem place_total (s : State) (w : CommandWord) : (s.place w).total = s.total := rfl
@[simp] theorem place_work (s : State) (w : CommandWord) : (s.place w).work = s.work := rfl
@[simp] theorem place_window (s : State) (w : CommandWord) : (s.place w).window = s.window := rfl
@[simp] theorem place_t (s : State) (w : CommandWord) : (s.place w).t = s.t := rfl
@[simp] theorem place_fsm (s : State) (w : CommandWord) : (s.place w).fsm = s.fsm := rfl
@[simp] theorem place_ret (s : State) (w : CommandWord) : (s.place w).ret = s.ret := rfl
@[simp] theorem place_fkind (s : State) (w : CommandWord) : (s.place w).fkind = s.fkind := rfl
@[simp] theorem place_dig (s : State) (w : CommandWord) : (s.place w).dig = s.dig := rfl
@[simp] theorem place_digValid (s : State) (w : CommandWord) : (s.place w).digValid = s.digValid := rfl
@[simp] theorem place_err (s : State) (w : CommandWord) : (s.place w).err = s.err := rfl
@[simp] theorem place_host (s : State) (w : CommandWord) : (s.place w).host = .command w :: s.host := rfl

/-! ### passEdge -/

@[simp] theorem passEdge_h (s : State) : s.passEdge.h = s.h := by
  unfold State.passEdge; split <;> rfl
@[simp] theorem passEdge_buf (s : State) : s.passEdge.buf = s.buf := by
  unfold State.passEdge; split <;> rfl
@[simp] theorem passEdge_fill (s : State) : s.passEdge.fill = s.fill := by
  unfold State.passEdge; split <;> rfl
@[simp] theorem passEdge_total (s : State) : s.passEdge.total = s.total := by
  unfold State.passEdge; split <;> rfl
@[simp] theorem passEdge_work (s : State) : s.passEdge.work = s.work := by
  unfold State.passEdge; split <;> rfl
@[simp] theorem passEdge_window (s : State) : s.passEdge.window = s.window := by
  unfold State.passEdge; split <;> rfl
@[simp] theorem passEdge_t (s : State) : s.passEdge.t = s.t := by
  unfold State.passEdge; split <;> rfl
@[simp] theorem passEdge_fsm (s : State) : s.passEdge.fsm = s.fsm := by
  unfold State.passEdge; split <;> rfl
@[simp] theorem passEdge_ret (s : State) : s.passEdge.ret = s.ret := by
  unfold State.passEdge; split <;> rfl
@[simp] theorem passEdge_fkind (s : State) : s.passEdge.fkind = s.fkind := by
  unfold State.passEdge; split <;> rfl
@[simp] theorem passEdge_dig (s : State) : s.passEdge.dig = s.dig := by
  unfold State.passEdge; split <;> rfl
@[simp] theorem passEdge_digValid (s : State) : s.passEdge.digValid = s.digValid := by
  unfold State.passEdge; split <;> rfl
@[simp] theorem passEdge_err (s : State) : s.passEdge.err = s.err := by
  unfold State.passEdge; split <;> rfl

/-- A command on the port keeps waiting there. -/
theorem passEdge_of_command {s : State} {w : CommandWord} {ms : List HostMove} (h : s.host = .command w :: ms) :
    s.passEdge = s := by
  simp [State.passEdge, h]

/-- A WAIT lasts one edge. -/
theorem passEdge_of_wait {s : State} {ms : List HostMove} (h : s.host = .wait :: ms) :
    s.passEdge.host = ms := by
  simp [State.passEdge, h]

/-- A reset lasts one edge. -/
theorem passEdge_of_reset {s : State} {ms : List HostMove} (h : s.host = .reset :: ms) :
    s.passEdge.host = ms := by
  simp [State.passEdge, h]

/-! ### The pins -/

theorem pins_of_command {s : State} {w : CommandWord} {ms : List HostMove} (h : s.host = .command w :: ms) :
    s.pins = .present w := by
  simp [State.pins, h]

theorem pins_of_wait {s : State} {ms : List HostMove} (h : s.host = .wait :: ms) : s.pins = .quiet := by
  simp [State.pins, h]

theorem pins_of_reset {s : State} {ms : List HostMove} (h : s.host = .reset :: ms) : s.pins = .resetting := by
  simp [State.pins, h]

theorem pins_of_nil {s : State} (h : s.host = []) : s.pins = .quiet := by
  simp [State.pins, h]

@[simp] theorem place_pins (s : State) (w : CommandWord) : (s.place w).pins = .present w := rfl

@[simp] theorem place_nextMove (s : State) (w : CommandWord) : (s.place w).nextMove = s := rfl

@[simp] theorem present_rst (w : CommandWord) : (PortIn.present w).rst = false := rfl
@[simp] theorem present_cmdValid (w : CommandWord) : (PortIn.present w).cmdValid = true := rfl
@[simp] theorem present_instr (w : CommandWord) : (PortIn.present w).instr = decode w := rfl

end Sys2Proof.Machine
end

