-- ==== Sys2Proof/Laws/Ops.lean ====
section
/-!
SUPPORT. One lemma for each shared operation of Machine/Ops.lean and Machine/Commands.lean that says everything it can do.
-/

namespace Sys2Proof.Machine

/-! ### Sequencing -/

@[simp] theorem andThen_next (s : State) (k : State → Result) : andThen (.next s) k = k s := rfl
@[simp] theorem andThen_fault (f : Fault) (k : State → Result) : andThen (.fault f) k = .fault f := rfl
@[simp] theorem andThen_refused (f : Refusal) (k : State → Result) : andThen (.refused f) k = .refused f := rfl

/-- A sequence that goes on went on at both parts. -/
theorem andThen_eq_next {r : Result} {k : State → Result} {t : State} :
    andThen r k = .next t ↔ ∃ s, r = .next s ∧ k s = .next t := by
  cases r <;> simp

theorem andThen_assoc (r : Result) (k l : State → Result) :
    andThen (andThen r k) l = andThen r fun s => andThen (k s) l := by
  cases r <;> rfl

/-- A stream in two parts runs the one and then the other. -/
theorem runCommands_append (is js : List Instr) (s : State) :
    runCommands (is ++ js) s = andThen (runCommands is s) (runCommands js) := by
  induction is generalizing s with
  | nil => rfl
  | cons i is ih =>
    simp only [List.cons_append, runCommands, andThen_assoc]
    congr 1
    funext t
    exact ih t

/-- A run of edges in two parts runs the one and then the other. -/
theorem runEdges_append (ps qs : List PortIn) (s : State) :
    runEdges (ps ++ qs) s = andThen (runEdges ps s) (runEdges qs) := by
  induction ps generalizing s with
  | nil => rfl
  | cons p ps ih =>
    simp only [List.cons_append, runEdges, andThen_assoc]
    congr 1
    funext t
    exact ih t

/-- The pins of a command stream: the first command's, then those of the rest. -/
theorem issueWhenReady_cons (i : Instr) (is : List Instr) (s : State) :
    issueWhenReady (i :: is) s =
      .present (encode i) :: List.replicate (busyCycles i s) .quiet ++
        match exec i s with
        | .next t => issueWhenReady is t
        | .fault _ => []
        | .refused _ => [] := by
  have h : decode (encode i) = i := by
    rw [decode_encode_fields]
    cases i <;> rfl
  cases he : exec i s <;> simp only [issueWhenReady, issueMoves, List.map_cons, h, he]

/-! ### The buffer -/

/-- A store goes on exactly for an index of the buffer, and writes that byte. -/
theorem storeByte_eq_next {i : Nat} {v : Byte} {s t : State} :
    storeByte i v s = .next t ↔ i < 64 ∧ t = { s with buf := s.buf.write i v } := by
  unfold storeByte
  split <;> simp_all [eq_comm]

theorem storeByte_of_lt {i : Nat} (h : i < 64) (v : Byte) (s : State) :
    storeByte i v s = .next { s with buf := s.buf.write i v } := by
  simp [storeByte, h]

/-- Dispatching a block changes the state words, the fill-count and the pipeline's registers, and nothing else. -/
theorem compressBuffer_eq (r : Ret) (s : State) :
    compressBuffer r s = { s with
      h := compress s.h s.buf.block, fill := 0, work := workingAfter s.h s.buf.block,
      window := windowAfter s.buf.block, t := 80, ret := r } := rfl

/-! ### Taking a command -/

theorem whenReady_idle {s : State} (h : s.fsm = .idle) (effect : State → Result) : whenReady s effect = effect s := by
  simp [whenReady, h]

theorem whenReady_done {s : State} (h : s.fsm = .done) (effect : State → Result) : whenReady s effect = effect s := by
  simp [whenReady, h]

theorem whenReady_busy {s : State} (h : s.fsm.ready = false) (effect : State → Result) :
    whenReady s effect = .next s := by
  unfold whenReady
  cases hf : s.fsm <;> simp_all [Fsm.ready]

theorem whenLegal_idle {s : State} (h : s.fsm = .idle) (effect : State → Result) : whenLegal s effect = effect s := by
  simp [whenLegal, h]

theorem whenLegal_done {s : State} (h : s.fsm = .done) (effect : State → Result) :
    whenLegal s effect = .next (raiseCmdError s) := by
  simp [whenLegal, h]

theorem whenLegal_busy {s : State} (h : s.fsm.ready = false) (effect : State → Result) :
    whenLegal s effect = .next s := by
  unfold whenLegal
  cases hf : s.fsm <;> simp_all [Fsm.ready]

/-- A state is ready in IDLE and in DONE, and nowhere else. -/
theorem fsm_ready_iff (f : Fsm) : f.ready = true ↔ f = .idle ∨ f = .done := by
  cases f <;> simp [Fsm.ready]

/-! ### Absorbing a byte -/

/-- An ABSORB that does not fill the buffer. -/
theorem absorbEffect_of_lt {d : Byte} {s : State} (h : s.fill < 63) :
    absorbEffect d s =
      .next { s with buf := s.buf.write s.fill.toNat d, fill := s.fill + 1, total := s.total + 1 } := by
  have h1 : s.fill.toNat < 64 := by
    have := BitVec.lt_def.1 h
    simp at this
    omega
  have h2 : ¬ s.fill + 1#7 = 64#7 := by bv_omega
  simp [absorbEffect, storeByte_of_lt h1, h2]

/-- An ABSORB that fills the buffer. -/
theorem absorbEffect_of_eq {d : Byte} {s : State} (h : s.fill = 63) :
    absorbEffect d s =
      .next (compressBuffer .idle { s with buf := s.buf.write 63 d, fill := 64, total := s.total + 1 }) := by
  simp [absorbEffect, h, storeByte]

/-! ### Finalizing -/

theorem finalBlocks_of_le {p : Nat} (h : p ≤ 55) (tail : Nat → Byte) (total : Length) :
    finalBlocks p tail total = [lastBlock p tail total] := by
  unfold finalBlocks
  rw [if_neg (show ¬ Config.lastFillWithoutOverflow < p from by unfold Config.lastFillWithoutOverflow; omega)]

theorem finalBlocks_of_gt {p : Nat} (h : 55 < p) (tail : Nat → Byte) (total : Length) :
    finalBlocks p tail total = [overflowBlock p tail, trailerBlock total] := by
  unfold finalBlocks
  rw [if_pos (show Config.lastFillWithoutOverflow < p from h)]

/-- The overflow block in the buffer after PAD1's writes. -/
theorem overflow_block (s : State) :
    (zeroAfter s.fill.toNat (s.buf.write s.fill.toNat 0x80)).block = overflowBlock s.fill.toNat s.buf.read := by
  refine Memory.block_eq_tabulate fun j hj => ?_
  rw [read_zeroAfter, Memory.read_write]
  rcases Nat.lt_trichotomy j s.fill.toNat with h | h | h
  · rw [if_neg (by omega), if_neg (by omega), if_pos h]
  · subst h
    simp
  · rw [if_pos ⟨h, hj⟩, if_neg (by omega), if_neg (by omega)]

/-- The last block in the buffer when there was no overflow. -/
theorem last_block {s : State} (hp : s.fill.toNat ≤ 55) :
    (writeTrailer (s.fill.toNat + 1) s.total (s.buf.write s.fill.toNat 0x80)).block =
      lastBlock s.fill.toNat s.buf.read s.total := by
  refine Memory.block_eq_tabulate fun j hj => ?_
  rw [read_writeTrailer (by omega), Memory.read_write]
  by_cases h56 : 56 ≤ j
  · rw [if_pos ⟨h56, hj⟩, if_neg (by omega), if_neg (by omega), if_neg (by omega)]
    rfl
  · rw [if_neg (by omega)]
    rcases Nat.lt_trichotomy j s.fill.toNat with h | h | h
    · rw [if_neg (by omega), if_neg (by omega), if_pos h]
    · subst h
      simp
    · rw [if_pos ⟨h, by omega⟩, if_neg (by omega), if_neg (by omega), if_pos (by omega)]

/-- The last block in the buffer after an overflow block. -/
theorem trailer_block (total : Length) (m : Memory) : (writeTrailer 0 total m).block = trailerBlock total := by
  refine Memory.block_eq_tabulate fun j hj => ?_
  rw [read_writeTrailer (by omega)]
  by_cases h56 : 56 ≤ j
  · rw [if_pos ⟨h56, hj⟩, if_neg (by omega)]
    rfl
  · rw [if_neg (by omega), if_pos ⟨by omega, by omega⟩, if_pos (by omega)]

/-- What steps 3 to 6 of a finalize leave, at fill-count `q` and for the block `B` that the padded buffer holds (R65). -/
theorem padTrailer_eq {s : State} {q : Nat} {B : Block} (hq : s.fill.toNat = q)
    (hB : (writeTrailer q s.total s.buf).block = B) :
    padTrailer s = { s with
      buf := writeTrailer q s.total s.buf
      h := compress s.h B
      fill := 0
      work := workingAfter s.h B
      window := windowAfter B
      t := 80
      ret := .finish
      dig := digestOf (compress s.h B) } := by
  simp only [padTrailer, compressBuffer_eq, hq, hB]

/-- What a finalize without overflow leaves (R65, R66). -/
theorem finalize_of_le {s : State} (hp : s.fill.toNat ≤ 55) :
    finalize s = .next { s with
      buf := writeTrailer (s.fill.toNat + 1) s.total (s.buf.write s.fill.toNat 0x80)
      h := finalHash s
      fill := 0
      work := workingAfter s.h (lastBlock s.fill.toNat s.buf.read s.total)
      window := windowAfter (lastBlock s.fill.toNat s.buf.read s.total)
      t := 80
      ret := .finish
      dig := digestOf (finalHash s) } := by
  have hf : (s.fill + 1).toNat = s.fill.toNat + 1 := by bv_omega
  have hn : ¬ Config.lastFillWithoutOverflow < s.fill.toNat := by
    unfold Config.lastFillWithoutOverflow
    omega
  rw [finalize, padMarker, storeByte_of_lt (show s.fill.toNat < 64 by omega), andThen_next, if_neg hn, andThen_next,
    padTrailer_eq (q := s.fill.toNat + 1) (B := lastBlock s.fill.toNat s.buf.read s.total), finalHash,
    finalBlocks_of_le hp]
  · simp only [List.foldl_cons, List.foldl_nil]
  · exact hf
  · exact last_block hp

/-- What a finalize with overflow leaves (R65, R66). -/
theorem finalize_of_gt {s : State} (hp : 55 < s.fill.toNat) (h64 : s.fill.toNat < 64) :
    finalize s = .next { s with
      buf := writeTrailer 0 s.total (zeroAfter s.fill.toNat (s.buf.write s.fill.toNat 0x80))
      h := finalHash s
      fill := 0
      work := workingAfter (compress s.h (overflowBlock s.fill.toNat s.buf.read)) (trailerBlock s.total)
      window := windowAfter (trailerBlock s.total)
      t := 80
      ret := .finish
      dig := digestOf (finalHash s) } := by
  have hn : Config.lastFillWithoutOverflow < s.fill.toNat := hp
  rw [finalize, padMarker, storeByte_of_lt h64, andThen_next, if_pos hn, andThen_next, compressBuffer_eq,
    overflow_block, padTrailer_eq (q := 0) (B := trailerBlock s.total), finalHash, finalBlocks_of_gt hp]
  · simp only [List.foldl_cons, List.foldl_nil]
  · rfl
  · exact trailer_block s.total _

end Sys2Proof.Machine
end

