-- ==== Sys2Proof/Laws/Pipeline.lean ====
section
/-!
SUPPORT. How a block goes through the pipeline: the window against the schedule, and the 82 edges of LOAD, ROUND and ACCUM
as one change of the state.
-/

namespace Sys2Proof.Machine

/-- The window of a block at the start of ROUND cycle `t`, with the schedule's recurrence carried on past `w[79]`
(R83). -/
def windowAt (B : Block) (t : Nat) : Vector Word 16 := tabulate 16 fun j => (scheduleTo B t).getD (t + j) 0

/-- LOAD fills the window with the first sixteen words of the schedule. -/
theorem windowAt_zero (B : Block) : windowAt B 0 = tabulate 16 fun j => (blockWords B).getD j 0 := by
  simp [windowAt, scheduleTo]

theorem windowAt_end (B : Block) : windowAt B 80 = windowAfter B := rfl

/-- One shift takes the window of cycle `t` to that of cycle `t + 1`: the invariant of R83. -/
theorem shiftWindow_windowAt (B : Block) (t : Nat) : shiftWindow (windowAt B t) = windowAt B (t + 1) := by
  refine tabulate_congr fun j hj => ?_
  split
  · rename_i h
    simp only [windowAt, tabulate_getElem]
    rw [scheduleTo_getD_succ B t _ (by omega)]
    congr 1
    omega
  · have : j = 15 := by omega
    subst this
    simp only [windowAt, tabulate_getElem]
    have h := scheduleTo_getD_last B t
    rw [show t + 1 + 15 = 16 + t by omega, h]
    rw [show 16 + t - 3 = t + 13 by omega, show 16 + t - 8 = t + 8 by omega, show 16 + t - 14 = t + 2 by omega,
      show 16 + t - 16 = t + 0 by omega]

/-- The word ROUND cycle `t` uses is `w[t]`. -/
theorem windowAt_first (B : Block) (t : Nat) (ht : t < 80) : (windowAt B t)[0] = (schedule B).getD t 0 := by
  simp only [windowAt, tabulate_getElem, Nat.add_zero, schedule]
  rcases Nat.le_total t 64 with h | h
  · rw [show (64 : Nat) = t + (64 - t) by omega, scheduleTo_getD_add B t (64 - t) t (by omega)]
  · obtain ⟨m, rfl⟩ : ∃ m, t = 64 + m := ⟨t - 64, by omega⟩
    rw [scheduleTo_getD_add B 64 m _ (by omega)]

/-- An edge without reset, in each busy state. -/
theorem clockEdge_of_busy {p : PortIn} {s : State} (hp : p.rst = false) :
    (s.fsm = .load → clockEdge p s = loadRule s) ∧
    (s.fsm = .round → clockEdge p s = roundRule s) ∧
    (s.fsm = .accum → clockEdge p s = accumRule s) ∧
    (s.fsm = .pad1 → clockEdge p s = pad1Rule s) ∧
    (s.fsm = .pad2 → clockEdge p s = pad2Rule s) ∧
    (s.fsm = .finish → clockEdge p s = finishRule s) := by
  refine ⟨?_, ?_, ?_, ?_, ?_, ?_⟩ <;> intro h <;> simp [clockEdge, hp, h]

/-- The state in ROUND cycle `t` of the block `B`, dispatched from the state `s`. -/
def inRound (s : State) (B : Block) (t : Nat) : State :=
  { s with
    work := roundsTo (schedule B) (loadWorking s.h) t
    window := windowAt B t
    t := BitVec.ofNat 7 t
    fill := 0
    fsm := if t < 80 then .round else .accum }

/-- The ROUND edges up to cycle `t`. -/
theorem runEdges_rounds (s : State) (B : Block) (ps : List PortIn) (hps : NoReset ps) (k : Nat)
    (h : k + ps.length ≤ 80) : runEdges ps (inRound s B k) = .next (inRound s B (k + ps.length)) := by
  induction ps generalizing k with
  | nil => rfl
  | cons p ps ih =>
    simp only [List.length_cons] at h
    have hp : p.rst = false := hps p (by simp)
    have hk : k < 80 := by omega
    have hfsm : (inRound s B k).fsm = .round := by simp [inRound, hk]
    have hstep : clockEdge p (inRound s B k) = .next (inRound s B (k + 1)) := by
      rw [(clockEdge_of_busy hp).2.1 hfsm]
      have h1 : (BitVec.ofNat 7 k).toNat = k := by simp; omega
      have h2 : BitVec.ofNat 7 k + 1 = BitVec.ofNat 7 (k + 1) := by simp [BitVec.ofNat_add]
      have h3 : (BitVec.ofNat 7 k = 79) ↔ ¬ k + 1 < 80 := by
        rw [← BitVec.toNat_inj, h1]
        change k = 79 ↔ ¬ k + 1 < 80
        omega
      simp only [roundRule, inRound, h1, h2, h3, windowAt_first B k hk, shiftWindow_windowAt, roundsTo_succ]
      congr 2
      by_cases hlt : k + 1 < 80 <;> simp [hlt]
    rw [runEdges, hstep, andThen_next, ih (fun q hq => hps q (by simp [hq])) (k + 1) (by omega)]
    congr 2
    simp only [List.length_cons]
    omega

/-- The state after a block has gone through the pipeline. -/
def afterBlock (s : State) (B : Block) (next : Fsm) : State :=
  { s with
    h := compress s.h B
    fill := 0
    work := workingAfter s.h B
    window := windowAfter B
    t := 80
    fsm := next }

/-- Where ACCUM goes (R93), for the codes of `ret` that are used. -/
def Ret.next : Ret → Fsm
  | .idle => .idle
  | .pad2 => .pad2
  | .finish => .finish
  | .unused => .finish

/-- The 82 edges of LOAD, ROUND and ACCUM are one application of `Compress` to the buffer (R74, R91 to R93). -/
theorem runEdges_block {s : State} {ps : List PortIn} (hf : s.fsm = .load) (hr : s.ret ≠ .unused) (hps : NoReset ps)
    (hlen : ps.length = 82) : runEdges ps s = .next (afterBlock s s.buf.block s.ret.next) := by
  obtain ⟨p, qs, rfl⟩ : ∃ p qs, ps = p :: qs := by
    cases ps with
    | nil => simp at hlen
    | cons p qs => exact ⟨p, qs, rfl⟩
  simp only [List.length_cons] at hlen
  have hload : clockEdge p s = .next (inRound s s.buf.block 0) := by
    rw [(clockEdge_of_busy (hps p (by simp))).1 hf, loadRule, Memory.words_eq]
    simp [inRound, windowAt_zero]
  obtain ⟨q, hq⟩ : ∃ q, qs.drop 80 = [q] := by
    have : (qs.drop 80).length = 1 := by simp; omega
    exact List.length_eq_one_iff.1 this
  have hmem : ∀ x ∈ qs, x.rst = false := fun x hx => hps x (by simp [hx])
  have hqrst : q.rst = false := hmem q (List.mem_of_mem_drop (hq ▸ List.mem_singleton_self q))
  have hrounds := runEdges_rounds s s.buf.block (qs.take 80) (fun x hx => hmem x (List.mem_of_mem_take hx)) 0
    (by simp)
  have hlen80 : (qs.take 80).length = 80 := by simp; omega
  rw [runEdges, hload, andThen_next, ← List.take_append_drop 80 qs, runEdges_append, hrounds, andThen_next, hlen80, hq,
    Nat.zero_add, runEdges, (clockEdge_of_busy hqrst).2.2.1 (by simp [inRound])]
  cases hret : s.ret with
  | unused => exact absurd hret hr
  | idle => simp [accumRule, inRound, hret, afterBlock, Ret.next, compress, workingAfter, windowAt_end, runEdges]
  | pad2 => simp [accumRule, inRound, hret, afterBlock, Ret.next, compress, workingAfter, windowAt_end, runEdges]
  | finish => simp [accumRule, inRound, hret, afterBlock, Ret.next, compress, workingAfter, windowAt_end, runEdges]

end Sys2Proof.Machine
end

