-- ==== Sys2Proof/Laws/Invariant.lean ====
section
/-!
SUPPORT. The invariant, rule by rule: each shared update and each rule of the controller keeps it, and none stops in a state
that meets it.
-/

namespace Sys2Proof.Machine

/-! ### Small facts -/

theorem fill_le_63 {x : BitVec 7} : x ≤ 63 ↔ x.toNat ≤ 63 := by simp [BitVec.le_def]
theorem fill_le_56 {x : BitVec 7} : x ≤ 56 ↔ x.toNat ≤ 56 := by simp [BitVec.le_def]
theorem fill_le_55 {x : BitVec 7} : x ≤ 55 ↔ x.toNat ≤ 55 := by simp [BitVec.le_def]

/-- Outside DONE the error flag is clear (R33 (h)). -/
theorem Inv.err_false {s : State} (hi : Inv s) (h : s.fsm ≠ .done) : s.err = false := by
  cases he : s.err
  · rfl
  · exact absurd (hi.err_done he) h

/-! ### States of one kind -/

/-- A ready engine with an empty buffer and no error meets the invariant. -/
theorem inv_of_empty {s : State} (hf : s.fsm = .idle) (hfill : s.fill = 0) (htotal : s.total = 0)
    (herr : s.err = false) (hret : s.ret ≠ .unused) (hwf : s.buf.wf) : Inv s where
  fill_le := by simp [hfill]
  full_only_in_load := by simp [hfill]
  idle_fill := by simp [hfill]
  idle_fill_eq := by simp [hfill, htotal]
  done_fill := by simp [hfill]
  round_t := by simp [hf]
  ret_used := hret
  finish_ret := by simp [hf]
  err_done := by simp [herr]
  buf_wf := hwf
  load_full := by simp [hf]
  pad1_fill := by simp [hf]
  pad2_fill := by simp [hf]
  cleared := by simp [hf]
  absorbed_block := by simp [hf, Fsm.inPipeline]

/-- A consumed engine meets the invariant, with or without an error. -/
theorem inv_of_done {s : State} (hf : s.fsm = .done) (hfill : s.fill = 0) (hret : s.ret ≠ .unused)
    (hwf : s.buf.wf) : Inv s where
  fill_le := by simp [hfill]
  full_only_in_load := by simp [hfill]
  idle_fill := by simp [hfill]
  idle_fill_eq := by simp [hf]
  done_fill := by simp [hfill]
  round_t := by simp [hf]
  ret_used := hret
  finish_ret := by simp [hf]
  err_done := by simp [hf]
  buf_wf := hwf
  load_full := by simp [hf]
  pad1_fill := by simp [hf]
  pad2_fill := by simp [hf]
  cleared := by simp [hf]
  absorbed_block := by simp [hf, Fsm.inPipeline]

/-- An engine in IDLE meets the invariant when its fill-count is that of its byte counter. -/
theorem inv_of_idle {s : State} (hf : s.fsm = .idle) (hfill : s.fill.toNat = s.total.toNat % 64)
    (herr : s.err = false) (hret : s.ret ≠ .unused) (hwf : s.buf.wf) :
    Inv s where
  fill_le := by
    rw [BitVec.le_def]
    exact Nat.le_of_lt (hfill ▸ Nat.mod_lt _ (by decide))
  full_only_in_load := by
    intro h
    rw [h] at hfill
    have := Nat.mod_lt s.total.toNat (show 0 < 64 by decide)
    rw [← hfill] at this
    exact absurd this (by decide)
  idle_fill := by
    intro _
    rw [fill_le_63]
    omega
  idle_fill_eq := fun _ => hfill
  done_fill := by simp [hf]
  round_t := by simp [hf]
  ret_used := hret
  finish_ret := by simp [hf]
  err_done := by simp [herr]
  buf_wf := hwf
  load_full := by simp [hf]
  pad1_fill := by simp [hf]
  pad2_fill := by simp [hf]
  cleared := by simp [hf]
  absorbed_block := by simp [hf, Fsm.inPipeline]

/-- A full block in LOAD meets the invariant. -/
theorem inv_of_load {s : State} (hf : s.fsm = .load) (hfill : s.fill = 64) (herr : s.err = false)
    (hret : s.ret ≠ .unused) (hwf : s.buf.wf)
    (hidle : s.ret = .idle → s.total.toNat % 64 = 0) : Inv s where
  fill_le := by simp [hfill]
  full_only_in_load := by simp [hf]
  idle_fill := by simp [hf]
  idle_fill_eq := by simp [hf]
  done_fill := by simp [hf]
  round_t := by simp [hf]
  ret_used := hret
  finish_ret := by simp [hf]
  err_done := by simp [herr]
  buf_wf := hwf
  load_full := by simp [hfill]
  pad1_fill := by simp [hf]
  pad2_fill := by simp [hf]
  cleared := by simp [hf]
  absorbed_block := fun _ => hidle

/-- A block in ROUND, ACCUM or FINISH meets the invariant. -/
theorem inv_of_cleared {s : State} (hf : s.fsm = .round ∨ s.fsm = .accum ∨ s.fsm = .finish) (hfill : s.fill = 0)
    (ht : s.fsm = .round → s.t ≤ 79) (herr : s.err = false) (hret : s.ret ≠ .unused)
    (hfin : s.fsm = .finish → s.ret = .finish) (hwf : s.buf.wf)
    (hidle : s.fsm.inPipeline = true → s.ret = .idle → s.total.toNat % 64 = 0) : Inv s where
  fill_le := by simp [hfill]
  full_only_in_load := by simp [hfill]
  idle_fill := by simp [hfill]
  idle_fill_eq := by rcases hf with h | h | h <;> simp [h]
  done_fill := by simp [hfill]
  round_t := ht
  ret_used := hret
  finish_ret := hfin
  err_done := by simp [herr]
  buf_wf := hwf
  load_full := by rcases hf with h | h | h <;> simp [h]
  pad1_fill := by rcases hf with h | h | h <;> simp [h]
  pad2_fill := by rcases hf with h | h | h <;> simp [h]
  cleared := fun _ => hfill
  absorbed_block := hidle

/-- A finalize in PAD1 meets the invariant. -/
theorem inv_of_pad1 {s : State} (hf : s.fsm = .pad1) (hfill : s.fill ≤ 63) (herr : s.err = false)
    (hret : s.ret ≠ .unused) (hwf : s.buf.wf) : Inv s where
  fill_le := by
    rw [fill_le_63] at hfill
    rw [BitVec.le_def]
    exact Nat.le_succ_of_le hfill
  full_only_in_load := by
    intro h
    rw [h] at hfill
    exact absurd hfill (by decide)
  idle_fill := by simp [hf]
  idle_fill_eq := by simp [hf]
  done_fill := by simp [hf]
  round_t := by simp [hf]
  ret_used := hret
  finish_ret := by simp [hf]
  err_done := by simp [herr]
  buf_wf := hwf
  load_full := by simp [hf]
  pad1_fill := fun _ => hfill
  pad2_fill := by simp [hf]
  cleared := by simp [hf]
  absorbed_block := by simp [hf, Fsm.inPipeline]

/-- A finalize in PAD2 meets the invariant. -/
theorem inv_of_pad2 {s : State} (hf : s.fsm = .pad2) (hfill : s.fill ≤ 56) (herr : s.err = false)
    (hret : s.ret ≠ .unused) (hwf : s.buf.wf) : Inv s where
  fill_le := by
    rw [fill_le_56] at hfill
    rw [BitVec.le_def]
    exact Nat.le_trans hfill (by decide)
  full_only_in_load := by
    intro h
    rw [h] at hfill
    exact absurd hfill (by decide)
  idle_fill := by simp [hf]
  idle_fill_eq := by simp [hf]
  done_fill := by simp [hf]
  round_t := by simp [hf]
  ret_used := hret
  finish_ret := by simp [hf]
  err_done := by simp [herr]
  buf_wf := hwf
  load_full := by simp [hf]
  pad1_fill := by simp [hf]
  pad2_fill := fun _ => hfill
  cleared := by simp [hf]
  absorbed_block := by simp [hf, Fsm.inPipeline]

/-! ### The shared updates -/

theorem create_inv {s : State} (hi : Inv s) : Inv (create s) :=
  inv_of_empty rfl rfl rfl rfl hi.ret_used hi.buf_wf

theorem hardReset_inv {s : State} (hi : Inv s) : Inv (hardReset s) :=
  inv_of_empty rfl rfl rfl rfl (by simp) hi.buf_wf

theorem raiseCmdError_inv {s : State} (hi : Inv s) (h : s.fsm = .done) : Inv (raiseCmdError s) :=
  inv_of_done h (hi.done_fill h) hi.ret_used hi.buf_wf

/-- The host's moves are no part of the invariant. -/
theorem inv_of_same_registers {s : State} (ms : List HostMove) (hi : Inv s) : Inv { s with host := ms } :=
  { fill_le := hi.fill_le, full_only_in_load := hi.full_only_in_load, idle_fill := hi.idle_fill,
    idle_fill_eq := hi.idle_fill_eq, done_fill := hi.done_fill, round_t := hi.round_t, ret_used := hi.ret_used,
    finish_ret := hi.finish_ret, err_done := hi.err_done, buf_wf := hi.buf_wf,
    load_full := hi.load_full, pad1_fill := hi.pad1_fill, pad2_fill := hi.pad2_fill, cleared := hi.cleared,
    absorbed_block := hi.absorbed_block }

/-! ### The rules of the controller -/

theorem idleRule_inv {s : State} (hi : Inv s) (h : s.fsm = .idle) (i : Instr) :
    ∃ t, idleRule i s = .next t ∧ Inv t := by
  have h63 : s.fill.toNat ≤ 63 := fill_le_63.1 (hi.idle_fill h)
  have herr : s.err = false := hi.err_false (by simp [h])
  have heq := hi.idle_fill_eq h
  cases i with
  | init d => exact ⟨_, rfl, create_inv hi⟩
  | final d => exact ⟨_, rfl, inv_of_pad1 rfl (hi.idle_fill h) herr hi.ret_used hi.buf_wf⟩
  | finalr d => exact ⟨_, rfl, inv_of_pad1 rfl (hi.idle_fill h) herr hi.ret_used hi.buf_wf⟩
  | absorb d =>
    simp only [idleRule, storeByte_of_lt (show s.fill.toNat < 64 by omega), andThen_next]
    have hwf := Memory.wf_write hi.buf_wf (show s.fill.toNat < 64 by omega) d
    have htotal : (s.total + 1).toNat % 64 = (s.total.toNat + 1) % 64 := by
      have h1 : (1 : Length).toNat = 1 := rfl
      rw [BitVec.toNat_add, h1]
      omega
    split
    · rename_i hf
      have hn : s.fill.toNat = 63 := by rw [hf]; rfl
      refine ⟨_, rfl, inv_of_load rfl (by rw [hf]; rfl) herr (by simp) hwf fun _ => ?_⟩
      show (s.total + 1).toNat % 64 = 0
      omega
    · rename_i hf
      have hlt : s.fill.toNat ≠ 63 := fun h' => hf (BitVec.eq_of_toNat_eq h')
      have hs : (s.fill + 1).toNat = s.fill.toNat + 1 := by bv_omega
      refine ⟨_, rfl, inv_of_idle h ?_ herr hi.ret_used hwf⟩
      show (s.fill + 1).toNat = (s.total + 1).toNat % 64
      omega

theorem doneRule_inv {s : State} (hi : Inv s) (h : s.fsm = .done) (i : Instr) :
    ∃ t, doneRule i s = .next t ∧ Inv t := by
  cases i with
  | init d => exact ⟨_, rfl, create_inv hi⟩
  | absorb d => exact ⟨_, rfl, raiseCmdError_inv hi h⟩
  | final d => exact ⟨_, rfl, raiseCmdError_inv hi h⟩
  | finalr d => exact ⟨_, rfl, raiseCmdError_inv hi h⟩

theorem pad1Rule_inv {s : State} (hi : Inv s) (h : s.fsm = .pad1) : ∃ t, pad1Rule s = .next t ∧ Inv t := by
  have h63 : s.fill.toNat ≤ 63 := fill_le_63.1 (hi.pad1_fill h)
  have herr : s.err = false := hi.err_false (by simp [h])
  have hwf := Memory.wf_write hi.buf_wf (show s.fill.toNat < 64 by omega) 0x80
  simp only [pad1Rule, storeByte_of_lt (show s.fill.toNat < 64 by omega), andThen_next]
  split
  · exact ⟨_, rfl, inv_of_load rfl rfl herr (by simp) (wf_zeroAfter hwf (by omega)) (by simp)⟩
  · rename_i hle
    have hle : s.fill.toNat ≤ 55 := Nat.le_of_not_lt hle
    have hs : (s.fill + 1).toNat = s.fill.toNat + 1 := by bv_omega
    refine ⟨_, rfl, inv_of_pad2 rfl ?_ herr hi.ret_used hwf⟩
    rw [fill_le_56]
    show (s.fill + 1).toNat ≤ 56
    omega

theorem pad2Rule_inv {s : State} (hi : Inv s) (h : s.fsm = .pad2) : ∃ t, pad2Rule s = .next t ∧ Inv t := by
  have h56 : s.fill.toNat ≤ 56 := fill_le_56.1 (hi.pad2_fill h)
  exact ⟨_, rfl, inv_of_load rfl rfl (hi.err_false (by simp [h])) (by simp) (wf_writeTrailer hi.buf_wf h56)
    (by simp)⟩

theorem loadRule_inv {s : State} (hi : Inv s) (h : s.fsm = .load) : ∃ t, loadRule s = .next t ∧ Inv t :=
  ⟨_, rfl, inv_of_cleared (.inl rfl) rfl (by simp) (hi.err_false (by simp [h])) hi.ret_used (by simp) hi.buf_wf
    fun _ => hi.absorbed_block (by simp [h, Fsm.inPipeline])⟩

theorem roundRule_inv {s : State} (hi : Inv s) (h : s.fsm = .round) : ∃ t, roundRule s = .next t ∧ Inv t := by
  have ht := hi.round_t h
  have herr : s.err = false := hi.err_false (by simp [h])
  have hfill := hi.cleared (.inl h)
  unfold roundRule
  split
  · exact ⟨_, rfl, inv_of_cleared (.inr (.inl rfl)) hfill (by simp) herr hi.ret_used (by simp) hi.buf_wf
      fun _ => hi.absorbed_block (by simp [h, Fsm.inPipeline])⟩
  · rename_i h79
    refine ⟨_, rfl, inv_of_cleared (.inl rfl) hfill (fun _ => ?_) herr hi.ret_used (by simp) hi.buf_wf
      fun _ => hi.absorbed_block (by simp [h, Fsm.inPipeline])⟩
    show s.t + 1 ≤ 79
    bv_omega

theorem accumRule_inv {s : State} (hi : Inv s) (h : s.fsm = .accum) : ∃ t, accumRule s = .next t ∧ Inv t := by
  have herr : s.err = false := hi.err_false (by simp [h])
  have hfill := hi.cleared (.inr (.inl h))
  unfold accumRule
  cases hret : s.ret with
  | unused => exact absurd hret hi.ret_used
  | idle =>
    have htotal := hi.absorbed_block (by simp [h, Fsm.inPipeline]) hret
    refine ⟨_, rfl, inv_of_idle rfl ?_ herr (by simp) hi.buf_wf⟩
    show s.fill.toNat = s.total.toNat % 64
    rw [hfill, htotal]
    rfl
  | pad2 =>
    refine ⟨_, rfl, inv_of_pad2 rfl ?_ herr (by simp) hi.buf_wf⟩
    rw [hfill]
    decide
  | finish =>
    exact ⟨_, rfl, inv_of_cleared (.inr (.inr rfl)) hfill (by simp) herr (by simp) (by simp) hi.buf_wf
      (by simp [Fsm.inPipeline])⟩

theorem finishRule_inv {s : State} (hi : Inv s) (h : s.fsm = .finish) : ∃ t, finishRule s = .next t ∧ Inv t := by
  have herr : s.err = false := hi.err_false (by simp [h])
  unfold finishRule
  split
  · exact ⟨_, rfl, inv_of_empty rfl rfl rfl herr hi.ret_used hi.buf_wf⟩
  · exact ⟨_, rfl, inv_of_done rfl (hi.cleared (.inr (.inr h))) hi.ret_used hi.buf_wf⟩

end Sys2Proof.Machine
end

