-- ==== Sys2Proof/Tests/Slice0.lean ====
section
/-!
SUPPORT. The model's own tests, with expected values from spec/95_test_vectors.md, and for each statement with hypotheses
a witness: concrete states and operands that meet them together.
-/

open Sys2Proof Sys2Proof.Machine

namespace Sys2Proof.Tests

/-! ### Helpers -/

/-- The next state of an outcome, if there is one. -/
def nextOf : Result → Option State
  | .next s => some s
  | .fault _ => none
  | .refused _ => none

/-- A fresh engine that has absorbed the bytes `bs`, fewer than 64. -/
def absorbing (bs : List Byte) : State :=
  { State.reset with
    buf := (List.range bs.length).map fun j => (j, bs.getD j 0)
    fill := BitVec.ofNat 7 bs.length
    total := BitVec.ofNat 64 bs.length }

/-- A fresh engine that has absorbed `n` bytes `0x61`. -/
def absorbed (n : Nat) : State := absorbing (List.replicate n 0x61)

/-- A consumed engine. -/
def consumed : State := { State.reset with fsm := .done, digValid := true, dig := 0x1234 }

/-- The state `s` with the controller in state `f`. -/
def inState (f : Fsm) (s : State) : State := { s with fsm := f }

/-- `"Hello, world!"` (95_test_vectors.md §1.1). -/
def hello : List Byte := [0x48, 0x65, 0x6c, 0x6c, 0x6f, 0x2c, 0x20, 0x77, 0x6f, 0x72, 0x6c, 0x64, 0x21]

/-! ### Decoding (95_test_vectors.md §3, 30_encoding.md R51, R52) -/

theorem test_decode_init : decode 0b0000000000 = .init 0x00 := by decide
theorem test_decode_absorb : decode 0b0101001000 = .absorb 0x48 := by decide
theorem test_decode_final : decode 0b1000000000 = .final 0x00 := by decide
theorem test_decode_finalr : decode 0b1100000000 = .finalr 0x00 := by decide
theorem test_decode_reserved_data : decode 0x05a = .init 0x5a := by decide
theorem test_encode_absorb : encode (.absorb 0x61) = 0x161 := by decide
theorem test_table_word : decodeTableWord 16 0x200 = some (.final 0x00) := by decide
theorem test_wide_number_refused : decodeNumber 0x400 = .error .widerThanCommandWord := by rfl

/-! ### Well-formedness: an ill-formed term for each check -/

theorem test_init_reserved_refused : (Instr.init 0x5a).wellFormed = false := by decide
theorem test_final_reserved_refused : (Instr.final 0x01).wellFormed = false := by decide
theorem test_finalr_reserved_refused : (Instr.finalr 0x80).wellFormed = false := by decide
theorem test_absorb_any_byte : (Instr.absorb 0xff).wellFormed = true := by decide

/-! ### Word operators and the transform (95_test_vectors.md §2.1 to §2.5) -/

theorem test_rotl_wraps : rotl 0x80000000 1 = 0x00000001 := by decide
theorem test_rotl_five : rotl 0x12345678 5 = 0x468ACF02 := by decide
theorem test_rotl_thirty : rotl 0x12345678 30 = 0x048D159E := by decide

theorem test_mix_groups :
    [0, 19, 20, 39, 40, 59, 60, 79].map (fun t => mix t 0xF0F0F0F0 0xCCCCCCCC 0xAAAAAAAA) =
      [0xCACACACA, 0xCACACACA, 0x96969696, 0x96969696, 0xE8E8E8E8, 0xE8E8E8E8, 0x96969696, 0x96969696] := by
  decide

theorem test_round_iv :
    round 0 (loadWorking iv) 0 = ⟨0x9fb498b3, 0x67452301, 0x7bf36ae2, 0x98badcfe, 0x10325476⟩ := by decide

theorem test_round_wraps :
    (round 79 ⟨0xffffffff, 0xffffffff, 0xffffffff, 0xffffffff, 0xffffffff⟩ 0xffffffff).a = 0xca62c1d2 := by decide

theorem test_schedule_counting_block :
    let w := schedule (tabulate 64 fun j => BitVec.ofNat 8 j)
    w.getD 15 0 = 0x3C3D3E3F ∧ w.getD 16 0 = 0x38383838 ∧ w.getD 79 0 = 0xC47818A4 := by decide +kernel

theorem test_compress_zero_block :
    compress iv (tabulate 64 fun _ => 0) = ⟨0x92b404e5, 0x56588ced, 0x6c1acd4e, 0xbf053f68, 0x09f73a93⟩ := by
  decide +kernel

/-- The trailer at the last exact length, and where it wraps (95_test_vectors.md §2.6). -/
theorem test_trailer : trailer (2 ^ 61 - 1) = 0xfffffffffffffff8 ∧ trailer (2 ^ 61) = 0 := by decide +kernel

/-! ### The commands, one step each (95_test_vectors.md §2.7, §2.8, §1.1) -/

theorem test_init_discards_message :
    (nextOf (exec (.init 0x5a) (absorbed 3))).map (fun s => (s.h, s.fill, s.total, s.digValid)) =
      some (iv, 0, 0, false) := by decide +kernel

theorem test_init_leaves_done :
    (nextOf (exec (.init 0) { consumed with err := true })).map (fun s => (s.fsm, s.err, s.digValid, s.dig)) =
      some (.idle, false, false, 0x1234) := by decide +kernel

theorem test_absorb_first_byte :
    (nextOf (exec (.absorb 0x48) State.reset)).map (fun s => (s.buf.read 0, s.fill, s.total, s.h)) =
      some (0x48, 1, 1, iv) := by decide +kernel

theorem test_absorb_completes_block :
    (nextOf (exec (.absorb 0x3f) (absorbing ((List.range 63).map fun j => BitVec.ofNat 8 j)))).map
        (fun s => (s.fill, s.total, s.h)) =
      some (0, 64, ⟨0xb9ac757b, 0xbc297925, 0x2e227274, 0x06872f94, 0xcbea56a1⟩) := by decide +kernel

theorem test_final_empty_message :
    (nextOf (exec (.final 0) State.reset)).map (fun s => (s.dig, s.digValid, s.fsm, s.total)) =
      some (0xda39a3ee5e6b4b0d3255bfef95601890afd80709, true, .done, 0) := by decide +kernel

theorem test_final_overflow :
    (nextOf (exec (.final 0) (absorbed 56))).map (fun s => (s.dig, s.fill, s.total)) =
      some (0xc2db330f6083854c99d4b5bfb6e8f29f201be699, 0, 56) := by decide +kernel

theorem test_finalr_hello :
    (nextOf (exec (.finalr 0) (absorbing hello))).map (fun s => (s.dig, s.digValid, s.fsm, s.h, s.total)) =
      some (0x943a702d06f34599aee1f8da8ef9f7296031d699, true, .idle, iv, 0) := by decide +kernel

theorem test_finalr_on_consumed_engine :
    nextOf (exec (.finalr 0) consumed) = some { consumed with err := true } := by decide +kernel

/-! ### The controller and the step (95_test_vectors.md §2.9) -/

theorem test_pad1_overflow :
    (nextOf (clockEdge .quiet (inState .pad1 (absorbed 56)))).map (fun s => (s.fsm, s.fill, s.ret)) =
      some (.load, 64, .pad2) := by decide +kernel

theorem test_pad2_trailer :
    (nextOf (clockEdge .quiet { inState .pad2 (absorbed 56) with fill := 0 })).map
        (fun s => (s.buf.read 55, s.buf.read 62, s.buf.read 63, s.ret)) =
      some (0, 0x01, 0xc0, .finish) := by decide +kernel

theorem test_step_runs_placed_word :
    (nextOf (step (State.reset.withFetchWord 16 0x300))).map (fun s => (s.dig, s.fkind, s.host)) =
      some (0xda39a3ee5e6b4b0d3255bfef95601890afd80709, true, []) := by decide +kernel

theorem test_busy_command_waits :
    (nextOf (step ((inState .accum State.reset).place 0x161))).map (fun s => (s.fsm, s.host)) =
      some (.idle, [.command 0x161]) := by decide +kernel

/-- `HASH "a"` after a label, before a comment (30_encoding.md R57, R58). -/
theorem test_assemble_hash :
    assemble [['x', ':', 'H', 'A', 'S', 'H', ' ', '"', 'a', '"', ' ', ';', 'c']] =
      some [.command 0x000, .command 0x161, .command 0x200] := by decide +kernel

theorem test_assemble_refuses_wide_byte :
    assemble [['A', 'B', 'S', 'O', 'R', 'B', ' ', '2', '5', '6']] = none := by decide +kernel

/-! ### Witnesses -/

theorem reset_inv : Inv State.reset :=
  inv_of_empty rfl rfl rfl rfl (by decide) (by decide)

theorem consumed_inv : Inv consumed :=
  inv_of_done rfl rfl (by decide) (by decide)

/-- The engine that has absorbed `n` bytes meets the invariant, at the ends of the range and about the padding
boundary. -/
theorem absorbed_inv : ∀ n ∈ [0, 1, 54, 55, 56, 62, 63], Inv (absorbed n) := by
  intro n hn
  refine inv_of_idle rfl ?_ rfl (fun h => nomatch h) ?_
  · revert n
    decide
  · revert n
    decide +kernel

/-- The hypotheses of DataFieldOnlyForAbsorb, AbsorbFrame and the first clause of AbsorbTakesOneByte, at the last
fill-count that leaves the block open. -/
theorem witness_absorb_open :
    (absorbed 62).fsm = .idle ∧ (absorbed 62).fill < 63 ∧ (nextOf (exec (.absorb 1) (absorbed 62))).isSome = true := by
  decide +kernel

/-- The hypotheses of the second clause of AbsorbTakesOneByte. -/
theorem witness_absorb_full :
    (absorbed 63).fsm = .idle ∧ (absorbed 63).fill = 63 := by decide +kernel

/-- The hypotheses of FinalDigestsAndConsumes, FinalrDigestsAndResets and FinalizeFrame, on both sides of the padding
boundary and at the ends of the range. -/
theorem witness_finalize : ∀ n ∈ [0, 55, 56, 63],
    (absorbed n).fsm = .idle ∧ (absorbed n).fill ≤ 63 ∧
      (nextOf (exec (.final 0) (absorbed n))).isSome = true ∧
      (nextOf (exec (.finalr 0) (absorbed n))).isSome = true := by
  decide +kernel

/-- The hypotheses of the CmdError clauses, of CmdErrorChangesOnlyErr and, with `err` set, of InitRecoversFromError. -/
theorem witness_consumed :
    consumed.fsm = .done ∧ { consumed with err := true }.err = true ∧ PortIn.resetting.rst = true ∧
      ∀ d : Byte, Instr.absorb 1 ≠ .init d := by
  refine ⟨rfl, rfl, rfl, fun d => by simp⟩

/-- The hypotheses of InitCreatesEngine, InitFrame and ResetIsCreate: both states that take commands. -/
theorem witness_ready : State.reset.Ready ∧ consumed.Ready ∧ (nextOf (exec (.init 0) consumed)).isSome = true :=
  ⟨rfl, rfl, rfl⟩

/-- The hypotheses of ResetEdge, ResetIsCreate, ResetAcceptsNothing and the reset clauses of StreamHashesMessage and
StaleStateNeverMatters. -/
theorem witness_reset_pins :
    PortIn.resetting.rst = true ∧ (PortIn.present 0x161).rst = false ∧ (PortIn.present 0x161).cmdValid = true :=
  ⟨rfl, rfl, rfl⟩

/-- The hypotheses of the third clause of TrailerIsBitLength, at the length where the trailer wraps. -/
theorem witness_trailer :
    ({ State.reset with total := 2 ^ 61 } : State).fsm = .idle ∧
      (nextOf (exec (.final 0) { State.reset with total := 2 ^ 61 })).isSome = true := by decide +kernel

/-- The hypotheses of IdleCommandsNeverFail. -/
theorem witness_idle : Inv State.reset ∧ State.reset.fsm = .idle := ⟨reset_inv, rfl⟩

/-- The hypothesis of BusyBlockTakesNoCommand, and those of UnacceptedCommandHasNoEffect in a busy state and in a ready
one. -/
theorem witness_unaccepted :
    (inState .load State.reset).busy = true ∧
      (PortIn.present 0x161).accepts (inState .load State.reset) = false ∧
      PortIn.quiet.accepts State.reset = false := by decide

/-- The hypothesis of ClockEdgeKeepsInv and StepKeepsInv in a busy state: a full block in LOAD. -/
theorem witness_inv_load :
    Inv { inState .load (absorbed 63) with buf := (absorbed 63).buf.write 63 0x61, fill := 64, total := 64 } :=
  inv_of_load rfl rfl rfl (by decide) (by decide +kernel) (by decide)

/-- The last clause of ControllerInvariantFromReset: an ACCUM that enters FINISH. -/
theorem witness_enters_finish :
    (nextOf (clockEdge .quiet { inState .accum State.reset with ret := .finish })).map (·.fsm) = some .finish := by
  decide +kernel

/-- The hypotheses of IdleEdge, clause by clause, at the fill-counts where a block stays open and where it closes. -/
theorem witness_idle_edge :
    PortIn.quiet.rst = false ∧ PortIn.quiet.cmdValid = false ∧
      (PortIn.present 0x000).cmdOp = 0b00 ∧ (PortIn.present 0x161).cmdOp = 0b01 ∧
      (PortIn.present 0x200).cmdOp.getLsbD 1 = true ∧ (PortIn.present 0x300).cmdOp.getLsbD 1 = true ∧
      (PortIn.present 0x300).cmdValid = true ∧
      (absorbed 62).fill ≤ 63 ∧ (absorbed 63).fill ≤ 63 ∧ (absorbed 63).fsm = .idle := by decide +kernel

/-- The hypotheses of FirstPadEdge, on both sides of the padding boundary. -/
theorem witness_pad1 :
    (inState .pad1 (absorbed 55)).fill ≤ 55 ∧ (inState .pad1 (absorbed 56)).fill > 55 ∧
      (inState .pad1 (absorbed 63)).fill ≤ 63 ∧ (inState .pad1 (absorbed 63)).fsm = .pad1 := by decide +kernel

/-- The hypotheses of SecondPadEdge, at the ends of its range. -/
theorem witness_pad2 :
    (inState .pad2 (absorbed 56)).fill ≤ 56 ∧ (inState .pad2 State.reset).fill ≤ 56 ∧
      (inState .pad2 State.reset).fsm = .pad2 := by decide +kernel

/-- The hypotheses of LoadEdge. -/
theorem witness_load : PortIn.quiet.rst = false ∧ (inState .load (absorbed 63)).fsm = .load := ⟨rfl, rfl⟩

/-- A byte of zero is not listed, so that equal buffers are equal data (log entry 1). -/
theorem test_write_zero_unlists : (Memory.write [(0, 0x61), (5, 0xff)] 5 0x00) = [(0, 0x61)] := by decide

/-- The hypotheses of RoundEdge at the last round and before it, of AccumEdge for each used code of `ret`, of the
last clause of UnreachedStatesStopByName, of FinishEdge for both kinds and of DoneEdge. -/
theorem witness_controller_states :
    { inState .round State.reset with t := 79 }.fsm = .round ∧ { inState .round State.reset with t := 78 }.t ≠ 79 ∧
      (inState .accum State.reset).ret ≠ .unused ∧ { inState .accum State.reset with ret := .pad2 }.ret ≠ .unused ∧
      { inState .accum State.reset with ret := .finish }.ret ≠ .unused ∧
      { inState .accum State.reset with ret := .unused }.fsm = .accum ∧
      (inState .finish State.reset).fkind = false ∧ { inState .finish State.reset with fkind := true }.fkind = true ∧
      consumed.fsm = .done ∧ (PortIn.present 0x161).cmdOp ≠ 0b00 := by decide

/-- The hypotheses of each clause of UnreachedStatesStopByName but the last, at the least fill-count the buffer has no
index for. -/
theorem witness_no_such_byte :
    ({ State.reset with fill := 64 } : State).fill ≥ 64 ∧ ({ State.reset with fill := 64 } : State).fsm = .idle ∧
      (PortIn.present 0x161).cmdOp = 0b01 ∧ (PortIn.present 0x161).rst = false ∧
      (inState .pad1 { State.reset with fill := 64 }).fsm = .pad1 := by decide +kernel

/-- The hypotheses of RegistersHold, DigestValidFlag and ErrorFlag: an edge that goes on, and a premise of each
implication. -/
theorem witness_register_writes :
    (nextOf (clockEdge .quiet { inState .finish State.reset with h := ⟨1, 2, 3, 4, 5⟩, total := 3, fkind := true })).map
        (fun s => (s.h != ⟨1, 2, 3, 4, 5⟩, s.total != 3, s.dig != 0)) = some (true, true, true) ∧
      (nextOf (clockEdge (.present 0x161) consumed)).map (·.err) = some true ∧
      (nextOf (clockEdge .quiet (inState .round State.reset))).map (fun s => (s.work != State.reset.work, s.t != 0)) =
        some (true, true) ∧
      (nextOf (clockEdge (.present 0x161) { absorbed 63 with ret := .finish })).map
        (fun s => (s.buf != (absorbed 63).buf, s.fill != 63, s.ret != .finish, s.fsm != .idle)) =
        some (true, true, true, true) ∧
      (nextOf (clockEdge (.present 0x300) { State.reset with digValid := true })).map
        (fun s => (s.fkind, s.digValid)) = some (true, false) := by decide +kernel

/-- The hypotheses of ScheduleRecurrence, WindowHoldsSchedule, RoundFunctions, RotlIsRotation and DigestIsBigEndian, at
the ends of their ranges and where their clauses meet. -/
theorem witness_ranges :
    (16 ≤ 16 ∧ 79 ≤ 79) ∧ (64 + 15 ≤ 79 ∧ 79 + 0 ≤ 79 ∧ 15 < 16) ∧
      (19 ≤ 19 ∧ 20 ≤ 39 ∧ 40 ≤ 59 ∧ 60 ≤ 79) ∧ (0 < 1 ∧ 31 < 32) ∧ (0 < 20 ∧ 19 < 20) := by decide

/-- The hypotheses of ControllerRefinesCommands: a command that leaves the block ready, and one with two compressions
and other commands on the port throughout. -/
theorem witness_refinement :
    (Inv State.reset ∧ State.reset.Ready ∧ NoReset [] ∧ ([] : List PortIn).length = busyCycles (.absorb 1) State.reset) ∧
      (Inv (absorbed 56) ∧ (absorbed 56).Ready ∧ NoReset (List.replicate 167 (.present 0x161)) ∧
        (List.replicate 167 (PortIn.present 0x161)).length = busyCycles (.final 0) (absorbed 56)) := by
  refine ⟨⟨reset_inv, rfl, by simp [NoReset], by decide⟩, absorbed_inv 56 (by decide), rfl, ?_, by decide +kernel⟩
  intro p hp
  rw [List.eq_of_mem_replicate hp]
  rfl

/-- The hypotheses of ControllerRefinesStreams, TimingTable and the first of StreamHashesMessage, in IDLE and in DONE. -/
theorem witness_streams :
    Inv (absorbed 63) ∧ (absorbed 63).Ready ∧ Inv consumed ∧ consumed.Ready ∧ hello.length < 2 ^ 61 ∧
      isFinalize (.final 0) = true ∧ isFinalize (.finalr 0) = true :=
  ⟨absorbed_inv 63 (by decide), rfl, consumed_inv, rfl, by decide, rfl, rfl⟩

/-- The hypotheses of the conditions of TimingTable. -/
theorem witness_timing :
    (absorbed 62).fill < 63 ∧ (absorbed 63).fill = 63 ∧ (absorbed 55).fill ≤ 55 ∧ (absorbed 56).fill > 55 := by
  decide +kernel

/-- The hypotheses of ControlIndependentOfData: two engines with different bytes and different state words. -/
theorem witness_control :
    Inv (absorbed 1) ∧ Inv { absorbed 1 with h := ⟨1, 2, 3, 4, 5⟩, buf := [(0, 0x62)] } ∧
      SameControl (absorbed 1) { absorbed 1 with h := ⟨1, 2, 3, 4, 5⟩, buf := [(0, 0x62)] } ∧
      List.Forall₂ SamePort [.present 0x161] [.present 0x162] :=
  ⟨absorbed_inv 1 (by decide),
    inv_of_idle rfl (by decide) rfl (by decide) (by decide),
    ⟨rfl, rfl, rfl, rfl, rfl, rfl, rfl⟩, .cons ⟨rfl, rfl, rfl⟩ .nil⟩

/-- The hypotheses of BusyBlockBecomesReady. -/
theorem witness_liveness :
    Inv State.reset ∧ NoReset (List.replicate 167 .quiet) ∧ (List.replicate 167 PortIn.quiet).length = 167 := by
  refine ⟨reset_inv, ?_, List.length_replicate⟩
  intro p hp
  rw [List.eq_of_mem_replicate hp]
  rfl

/-- The hypotheses of CompressionCount. -/
theorem witness_compression_count :
    isFinalize (.final 0) = true ∧ Inv State.reset ∧ State.reset.fsm = .idle ∧ State.reset.fill = 0 ∧
      State.reset.total = 0 := ⟨rfl, reset_inv, rfl, rfl, rfl⟩

/-- The hypotheses of StaleStateNeverMatters: two engines whose buffers differ at stale indices, with different old
digests. -/
theorem witness_same_engine :
    Inv (absorbed 1) ∧ Inv { absorbed 1 with buf := [(0, 0x61), (5, 0xff)], dig := 7, digValid := true } ∧
      (absorbed 1).Ready ∧
      SameEngine (absorbed 1) { absorbed 1 with buf := [(0, 0x61), (5, 0xff)], dig := 7, digValid := true } :=
  ⟨absorbed_inv 1 (by decide),
    inv_of_idle rfl (by decide) rfl (by decide) (by decide), rfl,
    ⟨rfl, rfl, rfl, rfl, rfl, by decide⟩⟩

/-- The last hypothesis of StaleStateNeverMatters: with `dig_valid = 0` the old digest is not observed. -/
theorem witness_same_observation :
    SameEngine (absorbed 1) { absorbed 1 with dig := 7 } ∧ (absorbed 1).observe = { absorbed 1 with dig := 7 }.observe :=
  ⟨⟨rfl, rfl, rfl, rfl, rfl, by decide⟩, rfl⟩

/-- The hypotheses of FinalrIsEquivalentToInit. -/
theorem witness_reset_equivalence :
    Inv (absorbed 56) ∧ Inv consumed ∧ (absorbed 56).fsm = .idle ∧ consumed.Ready ∧
      ∃ i ∈ [Instr.absorb 1, .final 0], isFinalize i = true :=
  ⟨absorbed_inv 56 (by decide), consumed_inv, rfl, rfl, .final 0, by simp, rfl⟩

/-- The hypotheses of StepRunsDecodedCommand, of each clause of StepWithoutCommandIsClockEdge, of the last clause of
PseudoCommandsExpand, of IncrementalEquivalence and of RunIsFoldOfCommands. -/
theorem witness_host_moves :
    (State.reset.place 0x161).Ready ∧ (State.reset.place 0x161).host = [.command 0x161] ∧
      State.reset.host = [] ∧ { State.reset with host := [.wait] }.host = [.wait] ∧
      { State.reset with host := [.reset] }.host = [.reset] ∧
      ((inState .load State.reset).place 0x161).busy = true ∧ Inv State.reset ∧ State.reset.Ready :=
  ⟨rfl, rfl, rfl, rfl, rfl, rfl, reset_inv, rfl⟩

end Sys2Proof.Tests
end

section
/-!
PROOF. Word operators (spec/00_scope.md rule R9, spec/41_compression.md rule R79): the model's `rotl`, an OR of two
shifts, is the library's rotation, and which bit of the argument each bit of the result is follows from that.
-/

namespace Sys2Proof.Machine

theorem rotl_eq_rotateLeft (x : Word) {n : Nat} (hn : n < 32) : rotl x n = x.rotateLeft n := by
  rw [BitVec.rotateLeft_eq_rotateLeftAux_of_lt hn]
  rfl

/-- The `n` low bits of `rotl x n` are the `n` high bits of `x`; every other bit moves up by `n`. -/
theorem getLsbD_rotl (x : Word) {n i : Nat} (hn : n < 32) (hi : i < 32) :
    (rotl x n).getLsbD i = x.getLsbD ((i + 32 - n) % 32) := by
  rw [rotl_eq_rotateLeft x hn, BitVec.getLsbD_rotateLeft, Nat.mod_eq_of_lt hn]
  by_cases hlow : i < n
  · have hwrap : (i + 32 - n) % 32 = 32 - n + i := by omega
    simp [hlow, hwrap]
  · have hshift : (i + 32 - n) % 32 = i - n := by omega
    simp [hlow, hi, hshift]

/-- Both sides are the same two shifts, with the operands of the OR exchanged (R79). -/
theorem rotl_thirty (x : Word) : rotl x 30 = x.rotateRight 2 := by
  rw [BitVec.rotateRight_eq_rotateRightAux_of_lt (by decide : 2 < 32)]
  exact BitVec.or_comm _ _

/-- Settles O45: `rotl` is the library's rotation, read bit by bit. -/
theorem rotlIsRotation : Obligations.RotlIsRotation :=
  ⟨fun x _ _ _ hn hi => getLsbD_rotl x hn hi, rotl_thirty⟩

end Sys2Proof.Machine
end

section
/-!
PROOF. One clock edge (spec/42_controller_fsm.md rules R86 to R97, spec/70_reset_and_hazards.md rule R117): which rule an
edge takes, said once, so that a fact about every edge is one goal per rule.
-/

namespace Sys2Proof.Machine

/-! ### Acceptance -/

/-- A block that is not ready accepts nothing (R87). -/
theorem accepts_of_busy {s : State} (h : s.fsm.ready = false) (p : PortIn) : p.accepts s = false := by
  simp [PortIn.accepts, State.cmdReady, h]

/-- A ready block accepts, at an edge without reset, exactly the command the host presents (R87). -/
theorem accepts_of_ready {p : PortIn} {s : State} (hp : p.rst = false) (h : s.fsm.ready = true) :
    p.accepts s = p.cmdValid := by
  simp [PortIn.accepts, State.cmdReady, hp, h]

/-! ### The command on the pins (R52) -/

theorem instr_of_init {p : PortIn} (h : p.cmdOp = 0b00) : p.instr = .init p.cmdData := by
  simp [PortIn.instr, decodeFields, h]

theorem instr_of_absorb {p : PortIn} (h : p.cmdOp = 0b01) : p.instr = .absorb p.cmdData := by
  simp [PortIn.instr, decodeFields, h]

theorem cmdOp_of_finalize {op : BitVec 2} : op.getLsbD 1 = true → op = 0b10 ∨ op = 0b11 := by
  revert op
  decide

/-- The high bit of `cmd_op` marks the two finalizes, and the low bit tells them apart. -/
theorem instr_of_finalize {p : PortIn} (h : p.cmdOp.getLsbD 1 = true) :
    p.instr = if p.cmdOp.getLsbD 0 then .finalr p.cmdData else .final p.cmdData := by
  obtain hop | hop := cmdOp_of_finalize h <;> simp [PortIn.instr, decodeFields, hop]

theorem cmdOp_cases (op : BitVec 2) : op = 0b00 ∨ op = 0b01 ∨ op.getLsbD 1 = true := by
  revert op
  decide

/-- IDLE accepting a finalize of either kind (R88). -/
theorem idleRule_finalize {p : PortIn} (s : State) (h : p.cmdOp.getLsbD 1 = true) :
    idleRule p.instr s = .next { s with fkind := p.cmdOp.getLsbD 0, digValid := false, fsm := .pad1 } := by
  rw [instr_of_finalize h]
  cases p.cmdOp.getLsbD 0 <;> rfl

/-- DONE accepting a command other than INIT (R95, R101). -/
theorem doneRule_error {p : PortIn} (s : State) (h : p.cmdOp ≠ 0b00) :
    doneRule p.instr s = .next (raiseCmdError s) := by
  obtain hinit | habsorb | hfinalize := cmdOp_cases p.cmdOp
  · exact absurd hinit h
  · rw [instr_of_absorb habsorb]
    rfl
  · rw [instr_of_finalize hfinalize]
    cases p.cmdOp.getLsbD 0 <;> rfl

/-! ### Which rule an edge takes -/

/-- Reset overrides every other rule (R117). -/
theorem clockEdge_of_reset {p : PortIn} (s : State) (hp : p.rst = true) : clockEdge p s = .next (hardReset s) := by
  simp [clockEdge, hp]

theorem clockEdge_of_idle {p : PortIn} {s : State} (hp : p.rst = false) (hf : s.fsm = .idle) :
    clockEdge p s = if p.cmdValid then idleRule p.instr s else .next s := by
  simp [clockEdge, hp, hf]

theorem clockEdge_of_done {p : PortIn} {s : State} (hp : p.rst = false) (hf : s.fsm = .done) :
    clockEdge p s = if p.cmdValid then doneRule p.instr s else .next s := by
  simp [clockEdge, hp, hf]

/-! ### What a rule that can stop did, where it went on -/

/-- IDLE accepting an ABSORB (R88). -/
theorem idleRule_absorb_eq_next {d : Byte} {s t : State} (h : idleRule (.absorb d) s = .next t) :
    s.fill.toNat < 64 ∧ t = { s with
      buf := s.buf.write s.fill.toNat d
      total := s.total + 1
      fill := s.fill + 1
      ret := if s.fill = 63 then .idle else s.ret
      fsm := if s.fill = 63 then .load else s.fsm } := by
  obtain ⟨s₁, hstore, hrest⟩ := andThen_eq_next.1 h
  obtain ⟨hlt, rfl⟩ := storeByte_eq_next.1 hstore
  refine ⟨hlt, ?_⟩
  split at hrest <;> cases hrest <;> rename_i hfull
  · simp only [if_pos hfull]
  · simp only [if_neg hfull]

/-- PAD1, with and without an overflow block (R89). -/
theorem pad1Rule_eq_next {s t : State} (h : pad1Rule s = .next t) :
    s.fill.toNat < 64 ∧ t =
      if Config.lastFillWithoutOverflow < s.fill.toNat then
        { s with
          buf := zeroAfter s.fill.toNat (s.buf.write s.fill.toNat 0x80), fill := 64, ret := .pad2, fsm := .load }
      else { s with buf := s.buf.write s.fill.toNat 0x80, fill := s.fill + 1, fsm := .pad2 } := by
  obtain ⟨s₁, hstore, hrest⟩ := andThen_eq_next.1 h
  obtain ⟨hlt, rfl⟩ := storeByte_eq_next.1 hstore
  refine ⟨hlt, ?_⟩
  split at hrest <;> cases hrest
  · rw [if_pos ‹_›]
  · rw [if_neg ‹_›]

/-- ACCUM, with a used code of `ret` (R93). -/
theorem accumRule_eq_next {s t : State} (h : accumRule s = .next t) :
    s.ret ≠ .unused ∧ t = { s with h := accumulate s.h s.work, fsm := s.ret.next } := by
  unfold accumRule at h
  cases hret : s.ret <;> rw [hret] at h
  case unused => cases h
  all_goals
    cases h
    exact ⟨nofun, rfl⟩

theorem ret_of_next_finish {r : Ret} (hused : r ≠ .unused) : r.next = .finish → r = .finish := by
  cases r <;> simp [Ret.next] at hused ⊢

/-! ### Every edge by its rule -/

/-- What holds of the outcome of every rule, under the conditions in which the rule is taken, holds of every edge. -/
theorem clockEdge_elim {p : PortIn} {s : State} {P : Result → Prop}
    (reset : p.rst = true → P (.next (hardReset s)))
    (hold : p.rst = false → p.accepts s = false → s.fsm.ready = true → P (.next s))
    (init : p.rst = false → p.accepts s = true → s.fsm.ready = true → p.cmdOp = 0b00 → P (.next (create s)))
    (absorb : p.rst = false → p.accepts s = true → s.fsm = .idle → p.cmdOp = 0b01 →
      P (idleRule (.absorb p.cmdData) s))
    (finalize : p.rst = false → p.accepts s = true → s.fsm = .idle → p.cmdOp.getLsbD 1 = true →
      P (.next { s with fkind := p.cmdOp.getLsbD 0, digValid := false, fsm := .pad1 }))
    (error : p.rst = false → p.accepts s = true → s.fsm = .done → p.cmdOp ≠ 0b00 → P (.next (raiseCmdError s)))
    (load : p.rst = false → s.fsm = .load → P (loadRule s))
    (round : p.rst = false → s.fsm = .round → P (roundRule s))
    (accum : p.rst = false → s.fsm = .accum → P (accumRule s))
    (pad1 : p.rst = false → s.fsm = .pad1 → P (pad1Rule s))
    (pad2 : p.rst = false → s.fsm = .pad2 → P (pad2Rule s))
    (finish : p.rst = false → s.fsm = .finish → P (finishRule s)) :
    P (clockEdge p s) := by
  cases hp : p.rst with
  | true => exact clockEdge_of_reset s hp ▸ reset hp
  | false =>
    obtain ⟨hload, hround, haccum, hpad1, hpad2, hfinish⟩ := clockEdge_of_busy (s := s) hp
    cases hf : s.fsm with
    | load => exact hload hf ▸ load hp hf
    | round => exact hround hf ▸ round hp hf
    | accum => exact haccum hf ▸ accum hp hf
    | pad1 => exact hpad1 hf ▸ pad1 hp hf
    | pad2 => exact hpad2 hf ▸ pad2 hp hf
    | finish => exact hfinish hf ▸ finish hp hf
    | idle =>
      have hready : s.fsm.ready = true := (fsm_ready_iff _).2 (.inl hf)
      have haccepts := accepts_of_ready hp hready
      rw [clockEdge_of_idle hp hf]
      cases hv : p.cmdValid with
      | false => exact hold hp (haccepts.trans hv) hready
      | true =>
        rw [if_pos rfl]
        obtain hop | hop | hop := cmdOp_cases p.cmdOp
        · rw [instr_of_init hop]
          exact init hp (haccepts.trans hv) hready hop
        · rw [instr_of_absorb hop]
          exact absorb hp (haccepts.trans hv) hf hop
        · rw [idleRule_finalize s hop]
          exact finalize hp (haccepts.trans hv) hf hop
    | done =>
      have hready : s.fsm.ready = true := (fsm_ready_iff _).2 (.inr hf)
      have haccepts := accepts_of_ready hp hready
      rw [clockEdge_of_done hp hf]
      cases hv : p.cmdValid with
      | false => exact hold hp (haccepts.trans hv) hready
      | true =>
        rw [if_pos rfl]
        by_cases hop : p.cmdOp = 0b00
        · rw [instr_of_init hop]
          exact init hp (haccepts.trans hv) hready hop
        · rw [doneRule_error s hop]
          exact error hp (haccepts.trans hv) hf hop

end Sys2Proof.Machine
end

section
/-!
PROOF. The invariant (spec/10_state.md rule R33): it holds at reset, and every clock edge, every command and every step goes
on and keeps it; so (a) to (h) hold along every run.
-/

namespace Sys2Proof.Machine

/-! ### Clock edges -/

/-- Settles O23: the state a run starts from is a fresh engine with an empty buffer. -/
theorem resetMeetsInv : Obligations.ResetMeetsInv :=
  inv_of_empty rfl rfl rfl rfl (by decide) (by decide)

/-- Settles O24: one goal per rule of the controller. -/
theorem clockEdgeKeepsInv : Obligations.ClockEdgeKeepsInv := by
  intro p s hi
  refine clockEdge_elim (P := fun r => ∃ t, r = .next t ∧ Inv t) ?reset ?hold ?init ?absorb ?finalize ?error
    (fun _ => loadRule_inv hi) (fun _ => roundRule_inv hi) (fun _ => accumRule_inv hi) (fun _ => pad1Rule_inv hi)
    (fun _ => pad2Rule_inv hi) (fun _ => finishRule_inv hi)
  case reset => exact fun _ => ⟨_, rfl, hardReset_inv hi⟩
  case hold => exact fun _ _ _ => ⟨s, rfl, hi⟩
  case init => exact fun _ _ _ _ => ⟨_, rfl, create_inv hi⟩
  case absorb => exact fun _ _ hf _ => idleRule_inv hi hf _
  case finalize =>
    exact fun _ _ hf _ =>
      ⟨_, rfl, inv_of_pad1 rfl (hi.idle_fill hf) (hi.err_false (by simp [hf])) hi.ret_used hi.buf_wf⟩
  case error => exact fun _ _ hf _ => ⟨_, rfl, raiseCmdError_inv hi hf⟩

/-- Every run of edges from a state of the invariant goes on and keeps it. -/
theorem runEdges_inv (ps : List PortIn) {s : State} (hi : Inv s) : ∃ t, runEdges ps s = .next t ∧ Inv t := by
  induction ps generalizing s with
  | nil => exact ⟨s, rfl, hi⟩
  | cons p ps ih =>
    obtain ⟨s₁, hedge, hi₁⟩ := clockEdgeKeepsInv p s hi
    rw [runEdges, hedge, andThen_next]
    exact ih hi₁

/-- FINISH is entered only by an ACCUM with RET_FINISH, in any state whatever (R33 (g)). -/
theorem clockEdge_enters_finish (p : PortIn) (s : State) :
    ∀ t, clockEdge p s = .next t → t.fsm = .finish → s.fsm = .accum ∧ s.ret = .finish := by
  refine clockEdge_elim (P := fun r => ∀ t, r = .next t → t.fsm = .finish → s.fsm = .accum ∧ s.ret = .finish)
    ?reset ?hold ?init ?absorb ?finalize ?error ?load ?round ?accum ?pad1 ?pad2 ?finish
  case reset => rintro - _ ⟨⟩ ⟨⟩
  case hold =>
    rintro - - hready _ ⟨⟩ ht
    simp [ht, Fsm.ready] at hready
  case init => rintro - - - - _ ⟨⟩ ⟨⟩
  case absorb =>
    intro _ _ hf _ t h ht
    obtain ⟨-, rfl⟩ := idleRule_absorb_eq_next h
    simp only [hf] at ht
    split at ht <;> cases ht
  case finalize => rintro - - - - _ ⟨⟩ ⟨⟩
  case error =>
    rintro - - hf _ _ ⟨⟩ ht
    cases hf.symm.trans ht
  case load => rintro - - _ ⟨⟩ ⟨⟩
  case round =>
    rintro - - _ ⟨⟩ ht
    dsimp only at ht
    split at ht <;> cases ht
  case accum =>
    intro _ hf t h ht
    obtain ⟨hused, rfl⟩ := accumRule_eq_next h
    exact ⟨hf, ret_of_next_finish hused ht⟩
  case pad1 =>
    intro _ _ t h ht
    obtain ⟨-, rfl⟩ := pad1Rule_eq_next h
    split at ht <;> cases ht
  case pad2 => rintro - - _ ⟨⟩ ⟨⟩
  case finish =>
    intro _ _ t h ht
    unfold finishRule at h
    split at h <;> cases h <;> cases ht

/-- Settles O26: the run keeps the invariant, which holds (a) to (h), and FINISH is entered from ACCUM only. -/
theorem controllerInvariantFromReset : Obligations.ControllerInvariantFromReset := by
  intro ps
  obtain ⟨s, hrun, hi⟩ := runEdges_inv ps resetMeetsInv
  exact ⟨s, hrun, hi.toControllerInvariant, fun p => clockEdge_enters_finish p s⟩

/-! ### Commands -/

/-- The host's next move is no part of the invariant. -/
theorem nextMove_inv {s : State} (hi : Inv s) : Inv s.nextMove := inv_of_same_registers _ hi

theorem passEdge_inv {s : State} (hi : Inv s) : Inv s.passEdge := by
  unfold State.passEdge
  split
  · exact hi
  · exact hi
  · exact nextMove_inv hi
  · exact nextMove_inv hi

theorem whenReady_inv {s : State} {effect : State → Result} (hi : Inv s)
    (heffect : ∃ t, effect s = .next t ∧ Inv t) : ∃ t, whenReady s effect = .next t ∧ Inv t := by
  cases hready : s.fsm.ready with
  | false => exact ⟨s, whenReady_busy hready effect, hi⟩
  | true =>
    obtain hf | hf := (fsm_ready_iff _).1 hready
    · rwa [whenReady_idle hf]
    · rwa [whenReady_done hf]

theorem whenLegal_inv {s : State} {effect : State → Result} (hi : Inv s)
    (heffect : s.fsm = .idle → ∃ t, effect s = .next t ∧ Inv t) : ∃ t, whenLegal s effect = .next t ∧ Inv t := by
  cases hready : s.fsm.ready with
  | false => exact ⟨s, whenLegal_busy hready effect, hi⟩
  | true =>
    obtain hf | hf := (fsm_ready_iff _).1 hready
    · rw [whenLegal_idle hf]
      exact heffect hf
    · exact ⟨_, whenLegal_done hf effect, raiseCmdError_inv hi hf⟩

/-- A block dispatched in LOAD by ABSORB leaves, once compressed, a ready engine with an empty buffer. -/
theorem compressBuffer_idle_inv {s : State} (hi : Inv s) (hf : s.fsm = .load) (hret : s.ret = .idle) :
    Inv { compressBuffer .idle s with fsm := .idle } := by
  have htotal := hi.absorbed_block (by simp [hf, Fsm.inPipeline]) hret
  rw [compressBuffer_eq]
  refine inv_of_idle rfl ?_ (hi.err_false (by simp [hf])) (by simp) hi.buf_wf
  simp [htotal]

/-- ABSORB keeps the invariant because IDLE's rule does: below the last byte of a block the two write the same, and at the
last byte the rule dispatches the block that the command compresses (R62, R88). -/
theorem absorbEffect_inv {s : State} (hi : Inv s) (hf : s.fsm = .idle) (d : Byte) :
    ∃ t, absorbEffect d s = .next t ∧ Inv t := by
  obtain ⟨t, hrule, ht⟩ := idleRule_inv hi hf (.absorb d)
  obtain ⟨-, rfl⟩ := idleRule_absorb_eq_next hrule
  have h63 : s.fill.toNat ≤ 63 := fill_le_63.1 (hi.idle_fill hf)
  by_cases hfull : s.fill = 63
  · refine ⟨_, absorbEffect_of_eq hfull, ?_⟩
    have := compressBuffer_idle_inv ht (by simp [hfull]) (by simp [hfull])
    simpa [compressBuffer_eq, hfull, hf] using this
  · refine ⟨_, absorbEffect_of_lt (by bv_omega), ?_⟩
    simpa only [if_neg hfull] using ht

/-- A finalize inside the buffer goes on: it empties the buffer, leaves RET_FINISH, and keeps `err`, the controller state
and the buffer's canonical form (R65). -/
theorem finalize_frame {s : State} (h63 : s.fill.toNat ≤ 63) (hwf : s.buf.wf) :
    ∃ t, finalize s = .next t ∧ t.fill = 0 ∧ t.ret = .finish ∧ t.err = s.err ∧ t.fsm = s.fsm ∧ t.buf.wf := by
  have hmarked := Memory.wf_write hwf (show s.fill.toNat < 64 by omega) 0x80
  by_cases h55 : s.fill.toNat ≤ 55
  · exact ⟨_, finalize_of_le h55, rfl, rfl, rfl, rfl, wf_writeTrailer hmarked (by omega)⟩
  · exact ⟨_, finalize_of_gt (by omega) (by omega), rfl, rfl, rfl, rfl,
      wf_writeTrailer (wf_zeroAfter hmarked (by omega)) (by omega)⟩

/-- FINAL leaves a consumed engine (R63). -/
theorem finalEffect_inv {s : State} (hi : Inv s) (hf : s.fsm = .idle) : ∃ t, finalEffect s = .next t ∧ Inv t := by
  obtain ⟨t, hfin, hfill, hret, -, -, hwf⟩ :=
    finalize_frame (s := { s with fkind := false }) (fill_le_63.1 (hi.idle_fill hf)) hi.buf_wf
  rw [finalEffect, hfin, andThen_next]
  exact ⟨_, rfl, inv_of_done rfl hfill (by simp [hret]) hwf⟩

/-- FINALR leaves a fresh engine (R64). -/
theorem finalrEffect_inv {s : State} (hi : Inv s) (hf : s.fsm = .idle) : ∃ t, finalrEffect s = .next t ∧ Inv t := by
  obtain ⟨t, hfin, -, hret, herr, hfsm, hwf⟩ :=
    finalize_frame (s := { s with fkind := true }) (fill_le_63.1 (hi.idle_fill hf)) hi.buf_wf
  rw [finalrEffect, hfin, andThen_next]
  exact ⟨_, rfl, inv_of_empty (hfsm.trans hf) rfl rfl (herr.trans (hi.err_false (by simp [hf]))) (by simp [hret]) hwf⟩

/-- Every command, in every state of the invariant, goes on and keeps it. -/
theorem exec_inv {s : State} (hi : Inv s) (i : Instr) : ∃ t, exec i s = .next t ∧ Inv t := by
  cases i with
  | init _ => exact whenReady_inv hi ⟨_, rfl, create_inv hi⟩
  | absorb d => exact whenLegal_inv hi fun hf => absorbEffect_inv hi hf d
  | final _ => exact whenLegal_inv hi fun hf => finalEffect_inv hi hf
  | finalr _ => exact whenLegal_inv hi fun hf => finalrEffect_inv hi hf

/-- Settles O25: a step is a command or a clock edge, and both keep the invariant. -/
theorem stepKeepsInv : Obligations.StepKeepsInv := by
  intro s hi
  unfold step
  split
  · exact exec_inv (nextMove_inv hi) _
  · exact clockEdgeKeepsInv _ _ (passEdge_inv hi)

end Sys2Proof.Machine
end

section
/-!
PROOF. The outputs, the reset values and the flags (spec/10_state.md rules R26 to R29 and R34, spec/42_controller_fsm.md
rule R97, spec/70_reset_and_hazards.md rule R117).
-/

namespace Sys2Proof.Machine

/-! ### The outputs -/

/-- The status bits from bit 0 up (R29, R97). -/
theorem status_getLsbD (s : State) :
    s.status.getLsbD 0 = s.busy ∧ s.status.getLsbD 1 = s.digValid ∧ s.status.getLsbD 2 = s.err ∧
      s.status.getLsbD 3 = s.consumed := by
  have hbits : ∀ c e v b : Bool, let w := BitVec.ofBool c ++ BitVec.ofBool e ++ BitVec.ofBool v ++ BitVec.ofBool b
      w.getLsbD 0 = b ∧ w.getLsbD 1 = v ∧ w.getLsbD 2 = e ∧ w.getLsbD 3 = c := by decide
  exact hbits s.consumed s.err s.digValid s.busy

/-- Settles O36: the four status bits are the derived signals, and these are read off the controller state. -/
theorem statusAndOutputs : Obligations.StatusAndOutputs := by
  intro s rst
  obtain ⟨hbusy, hvalid, herr, hconsumed⟩ := status_getLsbD s
  refine ⟨?_, rfl, rfl, ?_, hvalid, herr, ?_⟩
  · rw [← fsm_ready_iff]
    simp [State.outputs, State.cmdReady]
  · rw [← fsm_ready_iff, State.outputs, hbusy]
    simp [State.busy]
  · rw [State.outputs, hconsumed]
    simp [State.consumed]

/-! ### Reset -/

/-- Settles O7: reset is the rule `hardReset`, and its H is the initialization vector. -/
theorem resetEdge : Obligations.ResetEdge :=
  fun _ s hp => clockEdge_of_reset s hp

/-- Settles O8: each register, the status vector and `cmd_ready` by evaluation at the one state `State.reset`. -/
theorem runStartsAtResetValues : Obligations.RunStartsAtResetValues :=
  ⟨rfl, rfl, rfl, rfl, rfl, rfl, rfl, rfl, rfl, rfl, rfl⟩

/-! ### The flags -/

/-- An outcome that, where it goes on, leaves `dig_valid` and `err` as they are in `s`. -/
def KeepsFlags (s : State) (r : Result) : Prop := ∀ t, r = .next t → t.digValid = s.digValid ∧ t.err = s.err

theorem idleRule_absorb_keepsFlags (d : Byte) (s : State) : KeepsFlags s (idleRule (.absorb d) s) := by
  intro t h
  obtain ⟨-, rfl⟩ := idleRule_absorb_eq_next h
  exact ⟨rfl, rfl⟩

theorem loadRule_keepsFlags (s : State) : KeepsFlags s (loadRule s) := by
  rintro _ ⟨⟩
  exact ⟨rfl, rfl⟩

theorem roundRule_keepsFlags (s : State) : KeepsFlags s (roundRule s) := by
  rintro _ ⟨⟩
  exact ⟨rfl, rfl⟩

theorem accumRule_keepsFlags (s : State) : KeepsFlags s (accumRule s) := by
  intro t h
  obtain ⟨-, rfl⟩ := accumRule_eq_next h
  exact ⟨rfl, rfl⟩

theorem pad1Rule_keepsFlags (s : State) : KeepsFlags s (pad1Rule s) := by
  intro t h
  obtain ⟨-, rfl⟩ := pad1Rule_eq_next h
  split <;> exact ⟨rfl, rfl⟩

theorem pad2Rule_keepsFlags (s : State) : KeepsFlags s (pad2Rule s) := by
  rintro _ ⟨⟩
  exact ⟨rfl, rfl⟩

/-- FINISH sets `dig_valid` and keeps `err` (R94). -/
theorem finishRule_flags {s t : State} (h : finishRule s = .next t) : t.digValid = true ∧ t.err = s.err := by
  unfold finishRule at h
  split at h <;> cases h <;> exact ⟨rfl, rfl⟩

/-- `dig_valid` after an edge at which the pins are `p` and the block is in `s` (R26). -/
def digValidAfter (p : PortIn) (s : State) : Bool :=
  if p.rst then false
  else if s.fsm = .finish then true
  else if p.accepts s = true ∧ (p.cmdOp = 0b00 ∨ (s.fsm = .idle ∧ p.cmdOp.getLsbD 1 = true)) then false
  else s.digValid

/-- `err` after an edge at which the pins are `p` and the block is in `s` (R27). -/
def errAfter (p : PortIn) (s : State) : Bool :=
  if p.rst then false
  else if p.accepts s = true ∧ p.cmdOp = 0b00 then false
  else if p.accepts s = true ∧ s.fsm = .done then true
  else s.err

theorem ne_finish_of_ready {f : Fsm} (h : f.ready = true) : f ≠ .finish := by
  rintro rfl
  cases h

/-- A rule of a busy state that keeps both flags leaves them as R26 and R27 say: nothing is accepted there. -/
theorem KeepsFlags.flagsAfter {p : PortIn} {s : State} {r : Result} (hkeeps : KeepsFlags s r) (hp : p.rst = false)
    (hbusy : s.fsm.ready = false) (hf : s.fsm ≠ .finish) :
    ∀ t, r = .next t → t.digValid = digValidAfter p s ∧ t.err = errAfter p s := by
  have haccepts := accepts_of_busy hbusy p
  have hvalid : digValidAfter p s = s.digValid := by simp [digValidAfter, hp, haccepts, hf]
  have herr : errAfter p s = s.err := by simp [errAfter, hp, haccepts]
  rw [hvalid, herr]
  exact hkeeps

/-- Every edge that goes on leaves the two flags as R26 and R27 say. -/
theorem clockEdge_flags {p : PortIn} {s : State} :
    ∀ t, clockEdge p s = .next t → t.digValid = digValidAfter p s ∧ t.err = errAfter p s := by
  refine clockEdge_elim
    (P := fun r => ∀ t, r = .next t → t.digValid = digValidAfter p s ∧ t.err = errAfter p s)
    ?reset ?hold ?init ?absorb ?finalize ?error ?load ?round ?accum ?pad1 ?pad2 ?finish
  case reset =>
    rintro hp _ ⟨⟩
    simp [digValidAfter, errAfter, hp]
  case hold =>
    rintro hp haccepts hready _ ⟨⟩
    simp [digValidAfter, errAfter, hp, haccepts, ne_finish_of_ready hready]
  case init =>
    rintro hp haccepts hready hop _ ⟨⟩
    simp [digValidAfter, errAfter, hp, haccepts, hop, ne_finish_of_ready hready]
  case absorb =>
    intro hp _ hf hop t h
    obtain ⟨hvalid, herr⟩ := idleRule_absorb_keepsFlags p.cmdData s t h
    rw [hvalid, herr]
    simp [digValidAfter, errAfter, hp, hf, hop]
  case finalize =>
    rintro hp haccepts hf hop _ ⟨⟩
    have hinit : ¬ p.cmdOp = 0#2 := by
      intro hinit
      simp [hinit] at hop
    simp [digValidAfter, errAfter, hp, haccepts, hf, hop, hinit]
  case error =>
    rintro hp haccepts hf (hop : ¬ p.cmdOp = 0#2) _ ⟨⟩
    simp [digValidAfter, errAfter, hp, haccepts, hf, hop]
  case load => exact fun hp hf => (loadRule_keepsFlags s).flagsAfter hp (by simp [hf, Fsm.ready]) (by simp [hf])
  case round => exact fun hp hf => (roundRule_keepsFlags s).flagsAfter hp (by simp [hf, Fsm.ready]) (by simp [hf])
  case accum => exact fun hp hf => (accumRule_keepsFlags s).flagsAfter hp (by simp [hf, Fsm.ready]) (by simp [hf])
  case pad1 => exact fun hp hf => (pad1Rule_keepsFlags s).flagsAfter hp (by simp [hf, Fsm.ready]) (by simp [hf])
  case pad2 => exact fun hp hf => (pad2Rule_keepsFlags s).flagsAfter hp (by simp [hf, Fsm.ready]) (by simp [hf])
  case finish =>
    intro hp hf t h
    obtain ⟨hvalid, herr⟩ := finishRule_flags h
    rw [hvalid, herr]
    simp [digValidAfter, errAfter, hp, hf, accepts_of_busy (s := s) (by simp [hf, Fsm.ready])]

/-- Settles O38: `digValidAfter` is the chain of R26. -/
theorem digestValidFlag : Obligations.DigestValidFlag :=
  fun _ _ t h => (clockEdge_flags t h).1

/-- Settles O39: `errAfter` is the chain of R27. -/
theorem errorFlag : Obligations.ErrorFlag :=
  fun _ _ t h => (clockEdge_flags t h).2

end Sys2Proof.Machine
end

section
/-!
PROOF. The stops of states that no run reaches (spec/10_state.md rule R33, spec/20_memory.md rule R36,
spec/93_implementation_defined.md U3; log entry 6).
-/

namespace Sys2Proof.Machine

theorem storeByte_of_ge {i : Nat} (h : 64 ≤ i) (v : Byte) (s : State) : storeByte i v s = .fault .noSuchByte :=
  if_neg (Nat.not_lt.2 h)

theorem fill_ge_64 {x : BitVec 7} : x ≥ 64 ↔ 64 ≤ x.toNat := BitVec.le_def

section
variable {s : State} (h : 64 ≤ s.fill.toNat)
include h

theorem absorbEffect_of_ge (d : Byte) : absorbEffect d s = .fault .noSuchByte := by
  rw [absorbEffect, storeByte_of_ge h, andThen_fault]

theorem finalize_of_ge : finalize s = .fault .noSuchByte := by
  rw [finalize, padMarker, storeByte_of_ge h, andThen_fault, andThen_fault]

theorem idleRule_absorb_of_ge (d : Byte) : idleRule (.absorb d) s = .fault .noSuchByte := by
  rw [idleRule, storeByte_of_ge h, andThen_fault]

theorem pad1Rule_of_ge : pad1Rule s = .fault .noSuchByte := by
  rw [pad1Rule, storeByte_of_ge h, andThen_fault]

/-- A command that would write outside the buffer stops: ABSORB at its byte, a finalize at its marker. -/
theorem exec_of_ge (hf : s.fsm = .idle) (d : Byte) :
    exec (.absorb d) s = .fault .noSuchByte ∧ exec (.final d) s = .fault .noSuchByte ∧
      exec (.finalr d) s = .fault .noSuchByte := by
  refine ⟨?_, ?_, ?_⟩
  · rw [exec, execAbsorb, whenLegal_idle hf, absorbEffect_of_ge h]
  · rw [exec, execFinal, whenLegal_idle hf, finalEffect, finalize_of_ge (s := { s with fkind := false }) h, andThen_fault]
  · rw [exec, execFinalr, whenLegal_idle hf, finalrEffect, finalize_of_ge (s := { s with fkind := true }) h, andThen_fault]

end

/-- Settles O40: each clause is the rule's own stop, at a store outside the buffer or at the unused code. -/
theorem unreachedStatesStopByName : Obligations.UnreachedStatesStopByName := by
  intro d p s hp
  obtain ⟨-, -, haccum, hpad1, -, -⟩ := clockEdge_of_busy (s := s) hp
  refine ⟨?_, ?_, ?_, ?_⟩
  · intro hf hfill
    exact exec_of_ge (fill_ge_64.1 hfill) hf d
  · intro hf hfill hvalid hop
    rw [clockEdge_of_idle hp hf, if_pos hvalid, instr_of_absorb hop]
    exact idleRule_absorb_of_ge (fill_ge_64.1 hfill) p.cmdData
  · intro hf hfill
    rw [hpad1 hf]
    exact pad1Rule_of_ge (fill_ge_64.1 hfill)
  · intro hf hret
    rw [haccum hf, accumRule, hret]

end Sys2Proof.Machine
end

section
/-!
PROOF. The byte order of the digest (spec/20_memory.md rule R39; rule R10 for `bytes_be32`): a digest byte is a byte of
one of the five words, and each word is a field of `dig`.
-/

namespace Sys2Proof.Machine

/-- Byte `j` of a word, counted from the most significant (R10). -/
theorem getD_bytesBe32 (x : Word) {j : Nat} (hj : j < 4) :
    (bytesBe32 x).getD j 0 = x.extractLsb' (24 - 8 * j) 8 := by
  interval_cases j <;> rfl

/-- A field of a field is a field of the whole, at the sum of the two positions. -/
theorem extractLsb'_extractLsb'_of_add_le {w : Nat} (x : BitVec w) {a m b n : Nat} (h : b + n ≤ m) :
    (x.extractLsb' a m).extractLsb' b n = x.extractLsb' (a + b) n := by
  ext i hi
  have hinside : b + i < m := by omega
  simp [hinside, Nat.add_assoc]

/-- A field that lies above the low part `y` is a field of the high part. -/
theorem extractLsb'_append_add {v w : Nat} (x : BitVec v) (y : BitVec w) (a n : Nat) :
    (x ++ y).extractLsb' (w + a) n = x.extractLsb' a n := by
  rw [BitVec.extractLsb'_append_eq_of_le (Nat.le_add_right w a), Nat.add_sub_cancel_left]

/-- `dig = {H0, H1, H2, H3, H4}`: word `i` sits at `dig[159-32i : 128-32i]`, above the `4 - i` words after it (R39). -/
theorem extractLsb'_digestOf (H : HashState) {i : Nat} (hi : i < 5) :
    (digestOf H).extractLsb' (128 - 32 * i) 32 = H.words.getD i 0 := by
  have aboveH4 (a : Nat) := extractLsb'_append_add (H.h0 ++ H.h1 ++ H.h2 ++ H.h3) H.h4 a 32
  have aboveH3 (a : Nat) := extractLsb'_append_add (H.h0 ++ H.h1 ++ H.h2) H.h3 a 32
  have aboveH2 (a : Nat) := extractLsb'_append_add (H.h0 ++ H.h1) H.h2 a 32
  interval_cases i
  · exact (aboveH4 96).trans <| (aboveH3 64).trans <| (aboveH2 32).trans BitVec.extractLsb'_append_eq_left
  · exact (aboveH4 64).trans <| (aboveH3 32).trans <| (aboveH2 0).trans BitVec.extractLsb'_append_eq_right
  · exact (aboveH4 32).trans <| (aboveH3 0).trans BitVec.extractLsb'_append_eq_right
  · exact (aboveH4 0).trans BitVec.extractLsb'_append_eq_right
  · exact BitVec.extractLsb'_append_eq_right

/-- Settles O47: byte `k` of the digest is byte `k mod 4` of the field that holds word `k div 4`. -/
theorem digestIsBigEndian : Obligations.DigestIsBigEndian := by
  intro H k hk
  have hword : k / 4 < 5 := by omega
  have hbyte : k % 4 < 4 := by omega
  have hposition : 152 - 8 * k = 128 - 32 * (k / 4) + (24 - 8 * (k % 4)) := by omega
  rw [getD_bytesBe32 _ hbyte, ← extractLsb'_digestOf H hword, extractLsb'_extractLsb'_of_add_le _ (by omega),
    hposition]

end Sys2Proof.Machine
end

section
/-!
PROOF. The command word (spec/30_encoding.md rules R51 to R58): a word is its `op` field above its `data` field, and each
of the two fields is what the decoder and the encoder say it is.
-/

namespace Sys2Proof

/-! ### The two fields of a word -/

/-- The fields `op` and `data` leave no bit of a word out (R51). -/
theorem commandOp_append_commandData (w : CommandWord) : commandOp w ++ commandData w = w :=
  BitVec.extractLsb'_append_extractLsb' (w := 2) (len := 8)

theorem op_cases (op : BitVec 2) : op = 0b00 ∨ op = 0b01 ∨ op = 0b10 ∨ op = 0b11 := by
  revert op
  decide

/-- Each command keeps the `op` that selects it (R52) and, reserved or not, the `data` it came with (R53). -/
theorem encode_decodeFields (op : BitVec 2) (data : Byte) : encode (decodeFields op data) = op ++ data := by
  obtain rfl | rfl | rfl | rfl := op_cases op <;> rfl

/-- Settles O1: command by command, by the laws of the round trip. -/
theorem decodeOfEncode : Obligations.DecodeOfEncode
  | .init reserved => Laws.RoundTrip.init reserved
  | .absorb d => Laws.RoundTrip.absorb d
  | .final reserved => Laws.RoundTrip.final reserved
  | .finalr reserved => Laws.RoundTrip.finalr reserved

/-- Settles O2: the command keeps both fields, and the fields make up the word. -/
theorem encodeOfDecode : Obligations.EncodeOfDecode := fun w =>
  calc encode (decode w) = commandOp w ++ commandData w := encode_decodeFields _ _
    _ = w := commandOp_append_commandData w

/-- Settles O3: `decode` reads `op` and `data` where the statement does, and each `op` has one branch of
`decodeFields`. -/
theorem opFieldSelectsCommand : Obligations.OpFieldSelectsCommand := by
  intro w
  have hdecode : decode w = decodeFields (w.extractLsb' 8 2) (w.extractLsb' 0 8) := rfl
  rw [hdecode]
  refine ⟨?_, ?_, ?_, ?_⟩ <;>
    · intro hop
      rw [hop]
      rfl

/-! ### Numbers as command words -/

/-- A row whose low bits fit a command word is the command of that word (R51). -/
theorem decodeTableWord_of_lt {nbits w : Nat} (h : w % 2 ^ nbits < 1024) :
    decodeTableWord nbits w = some (decode (BitVec.ofNat 10 (w % 2 ^ nbits))) := by
  rw [decodeTableWord, decodeNumber, if_pos h]

/-- A row wider than a command word is refused (R51, R56). -/
theorem decodeTableWord_of_ge {nbits w : Nat} (h : 1024 ≤ w % 2 ^ nbits) : decodeTableWord nbits w = none := by
  rw [decodeTableWord, decodeNumber, if_neg (Nat.not_lt.2 h)]

/-- Settles O4: each word written out is the encoding of its command, `0x161` fits a command word, and `0x400` does
not. -/
theorem specWordsDecode : Obligations.SpecWordsDecode :=
  ⟨decodeOfEncode (.init 0x00), decodeOfEncode (.init 0x5A), decodeOfEncode (.absorb 0x48),
    decodeOfEncode (.absorb 0xFF), decodeOfEncode (.final 0x00), decodeOfEncode (.finalr 0x00),
    (decodeTableWord_of_lt (by decide)).trans (congrArg some (decodeOfEncode (.absorb 0x61))),
    decodeTableWord_of_ge (by decide)⟩

end Sys2Proof

namespace Sys2Proof.Machine

/-! ### The `data` field in the meaning of a command -/

theorem exec_absorb_of_idle {s : State} (hf : s.fsm = .idle) (d : Byte) : exec (.absorb d) s = absorbEffect d s :=
  whenLegal_idle hf _

/-- Where it goes on, ABSORB writes its byte at index `fill` and no other byte, whether or not a block is full (R62). -/
theorem buf_of_absorbEffect {d : Byte} {s t : State} (h : absorbEffect d s = .next t) :
    t.buf = s.buf.write s.fill.toNat d := by
  obtain ⟨s₁, hstore, hrest⟩ := andThen_eq_next.1 h
  obtain ⟨-, rfl⟩ := storeByte_eq_next.1 hstore
  cases hrest
  split <;> rfl

/-- Settles O5: no arm of `exec` but ABSORB's reads the field, and ABSORB stores it at index `fill`. -/
theorem dataFieldOnlyForAbsorb : Obligations.DataFieldOnlyForAbsorb := by
  refine ⟨fun d s => ⟨rfl, rfl, rfl⟩, fun d s t hf hexec => congrArg some ?_⟩
  rw [exec_absorb_of_idle hf] at hexec
  rw [buf_of_absorbEffect hexec, Memory.read_write_same]

/-! ### Pseudo-commands -/

/-- The word of `ABSORB b` is `0x100 + b` (R51, R52). -/
theorem encode_absorb (b : Byte) : encode (.absorb b) = 0x100 + b.setWidth 10 :=
  calc encode (.absorb b) = (0b01#2 ++ 0#8) + (0#2 ++ b) := BitVec.append_zero_add_zero_append.symm
    _ = 0x100 + b.setWidth 10 := by rw [BitVec.setWidth_eq_append (by decide)]; rfl

/-- Settles O6: the words of INIT, FINAL and FINALR are literals, and each byte's word is that of its ABSORB; a WAIT drives
the quiet pins. -/
theorem pseudoCommandsExpand : Obligations.PseudoCommandsExpand := by
  intro bytes absorbs
  have habsorbs : absorbMoves bytes = absorbs :=
    List.map_congr_left fun b _ => congrArg HostMove.command (encode_absorb b)
  rw [← habsorbs]
  refine ⟨rfl, rfl, rfl, rfl, rfl, fun s ms hwait => ?_⟩
  rw [pins_of_wait hwait]
  exact ⟨rfl, rfl⟩

end Sys2Proof.Machine
end

section
/-!
PROOF. The four commands (spec/40_commands.md rules R60 to R67): where a command goes on, and the state it goes on to.
The effects and the frames of the commands are read off that state.
-/

namespace Sys2Proof.Machine

/-! ### Where a command goes on -/

theorem whenReady_of_ready {s : State} (h : s.Ready) (effect : State → Result) : whenReady s effect = effect s := by
  obtain hf | hf := (fsm_ready_iff _).1 h
  · exact whenReady_idle hf effect
  · exact whenReady_done hf effect

/-- A command legal in every ready state either had its effect or met a busy block. -/
theorem whenReady_eq_next {s t : State} {effect : State → Result} (h : whenReady s effect = .next t) :
    (s.Ready ∧ effect s = .next t) ∨ (s.fsm.ready = false ∧ t = s) := by
  cases hready : s.fsm.ready with
  | true => exact .inl ⟨hready, by rwa [whenReady_of_ready hready] at h⟩
  | false =>
    rw [whenReady_busy hready] at h
    cases h
    exact .inr ⟨rfl, rfl⟩

/-- A command legal in IDLE only had its effect, raised CmdError in DONE, or met a busy block. -/
theorem whenLegal_eq_next {s t : State} {effect : State → Result} (h : whenLegal s effect = .next t) :
    (s.fsm = .idle ∧ effect s = .next t) ∨ (s.fsm = .done ∧ t = raiseCmdError s) ∨
      (s.fsm.ready = false ∧ t = s) := by
  cases hready : s.fsm.ready with
  | true =>
    obtain hf | hf := (fsm_ready_iff _).1 hready
    · exact .inl ⟨hf, by rwa [whenLegal_idle hf] at h⟩
    · rw [whenLegal_done hf] at h
      cases h
      exact .inr (.inl ⟨hf, rfl⟩)
  | false =>
    rw [whenLegal_busy hready] at h
    cases h
    exact .inr (.inr ⟨rfl, rfl⟩)

/-! ### INIT -/

theorem exec_init_of_ready {s : State} (h : s.Ready) (d : Byte) : exec (.init d) s = .next (create s) :=
  whenReady_of_ready h initEffect

/-- Settles O11: in a ready state INIT is `create`. -/
theorem initCreatesEngine : Obligations.InitCreatesEngine :=
  fun d _ h => exec_init_of_ready h d

/-- Settles O20: `create` writes none of these registers, and a busy block does not take the command. -/
theorem initFrame : Obligations.InitFrame := by
  intro d s t h
  obtain ⟨-, heffect⟩ | ⟨-, rfl⟩ := whenReady_eq_next h
  · cases heffect
    exact ⟨fun _ => rfl, rfl, rfl, rfl, rfl, rfl, rfl, rfl⟩
  · exact ⟨fun _ => rfl, rfl, rfl, rfl, rfl, rfl, rfl, rfl⟩

/-! ### ABSORB -/

theorem fill_lt_63 {x : BitVec 7} : x < 63 ↔ x.toNat < 63 := BitVec.lt_def

theorem fill_eq_63 {x : BitVec 7} : x = 63 ↔ x.toNat = 63 := by
  rw [← BitVec.toNat_inj]
  rfl

/-- A fill-count inside the buffer that is not the last leaves the block open. -/
theorem fill_lt_63_of_ne {x : BitVec 7} (hlt : x.toNat < 64) (h : x ≠ 63) : x < 63 := by
  rw [ne_eq, fill_eq_63] at h
  rw [fill_lt_63]
  omega

/-- The state ABSORB goes on to in IDLE, whether or not its byte completes a block (R62). -/
theorem absorbEffect_eq_next {d : Byte} {s t : State} (h : absorbEffect d s = .next t) :
    s.fill.toNat < 64 ∧
      (s.fill ≠ 63 →
        t = { s with buf := s.buf.write s.fill.toNat d, fill := s.fill + 1, total := s.total + 1 }) ∧
      (s.fill = 63 →
        t = compressBuffer .idle { s with buf := s.buf.write 63 d, fill := 64, total := s.total + 1 }) := by
  have hlt : s.fill.toNat < 64 := by
    by_contra hge
    rw [absorbEffect_of_ge (Nat.not_lt.1 hge)] at h
    cases h
  refine ⟨hlt, fun hopen => ?_, fun hfull => ?_⟩
  · exact Host.Outcome.next.inj (h.symm.trans (absorbEffect_of_lt (fill_lt_63_of_ne hlt hopen)))
  · exact Host.Outcome.next.inj (h.symm.trans (absorbEffect_of_eq hfull))

/-- The block that a last byte `d` completes. -/
theorem block_write_last (m : Memory) (d : Byte) :
    (m.write 63 d).block = tabulate 64 fun j => if j < 63 then m.read j else d := by
  refine Memory.block_eq_tabulate fun j hj => ?_
  rw [Memory.read_write]
  by_cases hlast : j = 63
  · rw [if_pos hlast, if_neg (by omega)]
  · rw [if_neg hlast, if_pos (by omega)]

/-- Settles O12: one clause for a block that stays open, one for a block that closes, and one for CmdError. -/
theorem absorbTakesOneByte : Obligations.AbsorbTakesOneByte := by
  intro d s
  refine ⟨fun hf hopen => ?_, fun hf hfull => ?_, fun hf => whenLegal_done hf _⟩
  · rw [exec_absorb_of_idle hf, absorbEffect_of_lt hopen]
  · rw [exec_absorb_of_idle hf, absorbEffect_of_eq hfull, compressBuffer_eq]
    exact ⟨_, rfl, congrArg (compress s.h) (block_write_last s.buf d), rfl, rfl, rfl, hf, rfl, rfl, rfl⟩

/-- Settles O21: the stored byte is the only write to the buffer, and only a full block goes through the pipeline. -/
theorem absorbFrame : Obligations.AbsorbFrame := by
  intro d s t h
  obtain ⟨hf, heffect⟩ | ⟨hf, rfl⟩ | ⟨-, rfl⟩ := whenLegal_eq_next h
  · have hread : ∀ a, a ≠ s.fill.toNat → t.buf.read a = s.buf.read a := fun a ha => by
      rw [buf_of_absorbEffect heffect, Memory.read_write_other _ _ _ _ ha]
    have hdone : s.fsm ≠ .done := by simp [hf]
    obtain ⟨-, hopen, hfull⟩ := absorbEffect_eq_next heffect
    by_cases h63 : s.fill = 63
    · obtain rfl := (hfull h63).trans (compressBuffer_eq _ _)
      exact ⟨hread, fun h => absurd h hdone, fun h => absurd h63 h, rfl, rfl, rfl, rfl, rfl, fun _ => rfl⟩
    · obtain rfl := hopen h63
      exact ⟨hread, fun h => absurd h hdone, fun _ => ⟨rfl, rfl, rfl, rfl, rfl⟩, rfl, rfl, rfl, rfl, rfl,
        fun _ => rfl⟩
  · exact ⟨fun _ _ => rfl, fun _ _ => rfl, fun _ => ⟨rfl, rfl, rfl, rfl, rfl⟩, rfl, rfl, rfl, rfl, rfl,
      fun h => absurd hf h⟩
  · exact ⟨fun _ _ => rfl, fun _ _ => rfl, fun _ => ⟨rfl, rfl, rfl, rfl, rfl⟩, rfl, rfl, rfl, rfl, rfl, fun _ => rfl⟩

/-! ### The padding of a finalize -/

/-- The buffer after the padding of a finalize at fill-count `p` (R65, R66). -/
def paddedBuffer (p : Nat) (total : Length) (m : Memory) : Memory :=
  if p ≤ 55 then writeTrailer (p + 1) total (m.write p 0x80)
  else writeTrailer 0 total (zeroAfter p (m.write p 0x80))

theorem paddedBuffer_of_le {p : Nat} (h : p ≤ 55) (total : Length) (m : Memory) :
    paddedBuffer p total m = writeTrailer (p + 1) total (m.write p 0x80) := if_pos h

theorem paddedBuffer_of_gt {p : Nat} (h : 55 < p) (total : Length) (m : Memory) :
    paddedBuffer p total m = writeTrailer 0 total (zeroAfter p (m.write p 0x80)) := if_neg (Nat.not_le.2 h)

/-- Without an overflow block the message tail stays in the buffer. -/
theorem read_paddedBuffer_tail {p a : Nat} (hp : p ≤ 55) (ha : a < p) (total : Length) (m : Memory) :
    (paddedBuffer p total m).read a = m.read a := by
  rw [paddedBuffer_of_le hp, read_writeTrailer (by omega), if_neg (by omega), if_neg (by omega),
    Memory.read_write_other _ _ _ _ (by omega)]

/-- The padding writes no byte outside the buffer. -/
theorem read_paddedBuffer_outside {p a : Nat} (hp : p < 64) (ha : 64 ≤ a) (total : Length) (m : Memory) :
    (paddedBuffer p total m).read a = m.read a := by
  have hmarker : (m.write p 0x80).read a = m.read a := Memory.read_write_other _ _ _ _ (by omega)
  by_cases h55 : p ≤ 55
  · rw [paddedBuffer_of_le h55, read_writeTrailer (by omega), if_neg (by omega), if_neg (by omega), hmarker]
  · rw [paddedBuffer_of_gt (by omega), read_writeTrailer (by omega), if_neg (by omega), if_neg (by omega),
      read_zeroAfter, if_neg (by omega), hmarker]

/-- What the padded buffer holds is the last of the blocks a finalize compresses. -/
theorem getLast?_finalBlocks (s : State) :
    (finalBlocks s.fill.toNat s.buf.read s.total).getLast? =
      some (paddedBuffer s.fill.toNat s.total s.buf).block := by
  by_cases h55 : s.fill.toNat ≤ 55
  · rw [finalBlocks_of_le h55, paddedBuffer_of_le h55, last_block h55]
    rfl
  · rw [finalBlocks_of_gt (by omega), paddedBuffer_of_gt (by omega), trailer_block]
    rfl

/-- The HashState before the last compression of a finalize. -/
def beforeLastBlock (s : State) : HashState :=
  if s.fill.toNat ≤ 55 then s.h else compress s.h (overflowBlock s.fill.toNat s.buf.read)

/-- The state `Finalize()` leaves (R65). -/
def finalized (s : State) : State :=
  { s with
    buf := paddedBuffer s.fill.toNat s.total s.buf
    h := finalHash s
    fill := 0
    work := workingAfter (beforeLastBlock s) (paddedBuffer s.fill.toNat s.total s.buf).block
    window := windowAfter (paddedBuffer s.fill.toNat s.total s.buf).block
    t := 80
    ret := .finish
    dig := digestOf (finalHash s) }

theorem finalize_of_lt {s : State} (h : s.fill.toNat < 64) : finalize s = .next (finalized s) := by
  by_cases h55 : s.fill.toNat ≤ 55
  · rw [finalize_of_le h55, finalized, beforeLastBlock, if_pos h55, paddedBuffer_of_le h55, last_block h55]
  · rw [finalize_of_gt (by omega) h, finalized, beforeLastBlock, if_neg h55, paddedBuffer_of_gt (by omega),
      trailer_block]

/-- Where `Finalize()` goes on, the fill-count was inside the buffer. -/
theorem finalize_eq_next {s t : State} (h : finalize s = .next t) : s.fill.toNat < 64 ∧ t = finalized s := by
  by_cases hlt : s.fill.toNat < 64
  · rw [finalize_of_lt hlt] at h
    cases h
    exact ⟨hlt, rfl⟩
  · rw [finalize_of_ge (Nat.not_lt.1 hlt)] at h
    cases h

/-! ### FINAL and FINALR -/

/-- The state FINAL leaves on an engine that is not consumed (R63). -/
def afterFinal (s : State) : State :=
  { finalized s with fkind := false, digValid := true, fsm := .done }

/-- The state FINALR leaves on an engine that is not consumed (R64). -/
def afterFinalr (s : State) : State :=
  { finalized s with fkind := true, digValid := true, h := iv, total := 0, fill := 0 }

theorem finalEffect_of_lt {s : State} (h : s.fill.toNat < 64) : finalEffect s = .next (afterFinal s) := by
  rw [finalEffect, finalize_of_lt (s := { s with fkind := false }) h]
  rfl

theorem finalrEffect_of_lt {s : State} (h : s.fill.toNat < 64) : finalrEffect s = .next (afterFinalr s) := by
  rw [finalrEffect, finalize_of_lt (s := { s with fkind := true }) h]
  rfl

theorem finalEffect_eq_next {s t : State} (h : finalEffect s = .next t) :
    s.fill.toNat < 64 ∧ t = afterFinal s := by
  obtain ⟨u, hfinalize, ht⟩ := andThen_eq_next.1 h
  obtain ⟨hlt, rfl⟩ := finalize_eq_next hfinalize
  cases ht
  exact ⟨hlt, rfl⟩

theorem finalrEffect_eq_next {s t : State} (h : finalrEffect s = .next t) :
    s.fill.toNat < 64 ∧ t = afterFinalr s := by
  obtain ⟨u, hfinalize, ht⟩ := andThen_eq_next.1 h
  obtain ⟨hlt, rfl⟩ := finalize_eq_next hfinalize
  cases ht
  exact ⟨hlt, rfl⟩

theorem exec_final_of_idle {s : State} (hf : s.fsm = .idle) (h : s.fill.toNat < 64) (d : Byte) :
    exec (.final d) s = .next (afterFinal s) :=
  (whenLegal_idle hf _).trans (finalEffect_of_lt h)

theorem exec_finalr_of_idle {s : State} (hf : s.fsm = .idle) (h : s.fill.toNat < 64) (d : Byte) :
    exec (.finalr d) s = .next (afterFinalr s) :=
  (whenLegal_idle hf _).trans (finalrEffect_of_lt h)

/-- A finalize that goes on left the state of its kind, raised CmdError in DONE, or met a busy block. -/
theorem exec_finalize_eq_next {i : Instr} {s t : State} (hi : isFinalize i = true) (h : exec i s = .next t) :
    (s.fsm = .idle ∧ s.fill.toNat < 64 ∧
        ((∃ d, i = .final d) ∧ t = afterFinal s ∨ (∃ d, i = .finalr d) ∧ t = afterFinalr s)) ∨
      (s.fsm = .done ∧ t = raiseCmdError s) ∨ (s.fsm.ready = false ∧ t = s) := by
  cases i with
  | init _ => cases hi
  | absorb _ => cases hi
  | final d =>
    refine (whenLegal_eq_next h).imp_left fun ⟨hf, heffect⟩ => ?_
    obtain ⟨hlt, ht⟩ := finalEffect_eq_next heffect
    exact ⟨hf, hlt, .inl ⟨⟨d, rfl⟩, ht⟩⟩
  | finalr d =>
    refine (whenLegal_eq_next h).imp_left fun ⟨hf, heffect⟩ => ?_
    obtain ⟨hlt, ht⟩ := finalrEffect_eq_next heffect
    exact ⟨hf, hlt, .inr ⟨⟨d, rfl⟩, ht⟩⟩

theorem fill_lt_64_of_le {x : BitVec 7} (h : x ≤ 63) : x.toNat < 64 := Nat.lt_succ_of_le (fill_le_63.1 h)

/-- Settles O13: every register is read off `afterFinal`; in DONE the command is a CmdError. -/
theorem finalDigestsAndConsumes : Obligations.FinalDigestsAndConsumes := by
  refine fun d s => ⟨fun hf h63 => ?_, fun hf => whenLegal_done hf _⟩
  exact ⟨_, exec_final_of_idle hf (fill_lt_64_of_le h63) d, rfl, rfl, rfl, rfl, rfl, rfl, rfl, getLast?_finalBlocks s⟩

/-- Settles O14: every register is read off `afterFinalr` and `afterFinal`; in DONE the command is a CmdError. -/
theorem finalrDigestsAndResets : Obligations.FinalrDigestsAndResets := by
  refine fun d s => ⟨fun hf h63 => ?_, fun hf => whenLegal_done hf _⟩
  have hlt := fill_lt_64_of_le h63
  exact ⟨_, _, exec_finalr_of_idle hf hlt d, exec_final_of_idle hf hlt d, rfl, rfl, rfl, rfl, rfl, rfl, rfl, hf, rfl⟩

/-- A finalize changes `err` on a consumed engine only. -/
theorem err_of_exec_finalize {i : Instr} {s t : State} (hi : isFinalize i = true) (h : exec i s = .next t)
    (hf : s.fsm ≠ .done) : t.err = s.err := by
  obtain ⟨-, -, ⟨-, rfl⟩ | ⟨-, rfl⟩⟩ | ⟨hdone, -⟩ | ⟨-, rfl⟩ := exec_finalize_eq_next hi h
  · rfl
  · rfl
  · exact absurd hdone hf
  · rfl

/-- Settles O22: the buffer after a finalize is `paddedBuffer`, and no other register named here is written. -/
theorem finalizeFrame : Obligations.FinalizeFrame := by
  intro i s t hi h
  have herr := err_of_exec_finalize hi h
  have hpadded (hlt : s.fill.toNat < 64) (hbuf : t.buf = paddedBuffer s.fill.toNat s.total s.buf) :
      (s.fill ≤ 55 → ∀ a, a < s.fill.toNat → t.buf.read a = s.buf.read a) ∧
        ∀ a, 64 ≤ a → t.buf.read a = s.buf.read a :=
    ⟨fun h55 a ha => hbuf ▸ read_paddedBuffer_tail (fill_le_55.1 h55) ha _ _,
      fun a ha => hbuf ▸ read_paddedBuffer_outside hlt ha _ _⟩
  obtain ⟨hf, hlt, ⟨-, rfl⟩ | ⟨⟨d, rfl⟩, rfl⟩⟩ | ⟨hf, rfl⟩ | ⟨hf, rfl⟩ := exec_finalize_eq_next hi h
  · obtain ⟨htail, houtside⟩ := hpadded hlt rfl
    exact ⟨htail, houtside, fun _ _ => rfl, herr, fun hdone => by simp [hf] at hdone, rfl⟩
  · obtain ⟨htail, houtside⟩ := hpadded hlt rfl
    exact ⟨htail, houtside, nofun, herr, fun hdone => by simp [hf] at hdone, rfl⟩
  · exact ⟨fun _ _ _ => rfl, fun _ _ => rfl, fun _ _ => rfl, herr, fun _ => rfl, rfl⟩
  · exact ⟨fun _ _ _ => rfl, fun _ _ => rfl, fun _ _ => rfl, herr, fun hdone => by simp [hdone, Fsm.ready] at hf, rfl⟩

/-! ### Every command -/

/-- In DONE every command but INIT is a CmdError (R101). -/
theorem exec_of_done {i : Instr} {s : State} (hf : s.fsm = .done) (hinit : ∀ d, i ≠ .init d) :
    exec i s = .next (raiseCmdError s) := by
  cases i with
  | init d => exact absurd rfl (hinit d)
  | absorb d => exact whenLegal_done hf _
  | final d => exact whenLegal_done hf _
  | finalr d => exact whenLegal_done hf _

theorem fsm_of_exec_absorb {d : Byte} {s t : State} (h : exec (.absorb d) s = .next t) : t.fsm = s.fsm := by
  obtain ⟨-, -, -, -, -, -, hfsm, -⟩ := absorbFrame d s t h
  exact hfsm

theorem ready_of_exec_finalize {i : Instr} {s t : State} (hfin : isFinalize i = true) (hready : s.Ready)
    (h : exec i s = .next t) : t.Ready := by
  obtain ⟨-, -, ⟨-, rfl⟩ | ⟨-, rfl⟩⟩ | ⟨-, rfl⟩ | ⟨-, rfl⟩ := exec_finalize_eq_next hfin h
  · rfl
  · exact hready
  · exact hready
  · exact hready

/-- Every command leaves a ready block ready. -/
theorem exec_ready {i : Instr} {s t : State} (hready : s.Ready) (h : exec i s = .next t) : t.Ready := by
  cases i with
  | init d =>
    rw [exec_init_of_ready hready] at h
    cases h
    rfl
  | absorb d =>
    rw [State.Ready, fsm_of_exec_absorb h]
    exact hready
  | final d => exact ready_of_exec_finalize rfl hready h
  | finalr d => exact ready_of_exec_finalize rfl hready h

/-- Where a command goes on from a state of the invariant, it keeps the invariant. -/
theorem inv_of_exec {i : Instr} {s t : State} (hi : Inv s) (h : exec i s = .next t) : Inv t := by
  obtain ⟨u, hu, hinv⟩ := exec_inv hi i
  exact Host.Outcome.next.inj (hu.symm.trans h) ▸ hinv

/-- Where an edge goes on from a state of the invariant, it keeps the invariant. -/
theorem inv_of_clockEdge {p : PortIn} {s t : State} (hi : Inv s) (h : clockEdge p s = .next t) : Inv t := by
  obtain ⟨u, hu, hinv⟩ := clockEdgeKeepsInv p s hi
  exact Host.Outcome.next.inj (hu.symm.trans h) ▸ hinv

/-! ### The trailer -/

theorem toNat_trailer (total : Length) : (trailer total).toNat = 8 * total.toNat % 2 ^ 64 := by
  rw [trailer, BitVec.toNat_shiftLeft, Nat.shiftLeft_eq, Nat.mul_comm]

/-- Settles O15: a shift by three is a product with 8 modulo 2^64, and no finalize looks at its size to set a flag. -/
theorem trailerIsBitLength : Obligations.TrailerIsBitLength := by
  refine fun total => ⟨toNat_trailer total, ?_, fun d s t hf _ h => ?_⟩
  · rw [toNat_trailer]
    omega
  · have hdone : s.fsm ≠ .done := by simp [hf]
    exact h.elim (fun h => err_of_exec_finalize rfl h hdone) (fun h => err_of_exec_finalize rfl h hdone)

end Sys2Proof.Machine
end

section
/-!
PROOF. Messages (spec/40_commands.md rules R65, R68 and R73): what an engine holds after the bytes of a message, and
that the blocks of its finalize are those of the padded message.
-/

namespace Sys2Proof.Machine

/-! ### The blocks of a byte string -/

/-- The HashState after the first `n` blocks of a byte string. -/
def compressFirst (H : HashState) (bytes : List Byte) (n : Nat) : HashState :=
  (List.range n).foldl (fun H k => compress H (blockAt bytes k)) H

theorem compressAll_eq_compressFirst {bytes : List Byte} {n : Nat} (hn : bytes.length / 64 = n) (H : HashState) :
    compressAll H bytes = compressFirst H bytes n := by
  rw [← hn]
  rfl

theorem compressFirst_zero (H : HashState) (bytes : List Byte) : compressFirst H bytes 0 = H := rfl

theorem compressFirst_succ (H : HashState) (bytes : List Byte) (n : Nat) :
    compressFirst H bytes (n + 1) = compress (compressFirst H bytes n) (blockAt bytes n) := by
  rw [compressFirst, List.range_succ, List.foldl_append]
  rfl

/-- A block of a byte string does not depend on what follows it. -/
theorem blockAt_append {bytes : List Byte} {k : Nat} (h : 64 * (k + 1) ≤ bytes.length) (more : List Byte) :
    blockAt (bytes ++ more) k = blockAt bytes k :=
  tabulate_congr fun _ _ => List.getD_append _ _ _ _ (by omega)

theorem compressFirst_append {bytes : List Byte} {n : Nat} (h : 64 * n ≤ bytes.length) (H : HashState)
    (more : List Byte) : compressFirst H (bytes ++ more) n = compressFirst H bytes n := by
  induction n with
  | zero => rw [compressFirst_zero, compressFirst_zero]
  | succ n ih => rw [compressFirst_succ, compressFirst_succ, ih (by omega), blockAt_append h]

/-- The whole blocks of a byte string come first in every longer one. -/
theorem compressFirst_append_div (H : HashState) (bytes more : List Byte) :
    compressFirst H (bytes ++ more) (bytes.length / 64) = compressAll H bytes :=
  compressFirst_append (Nat.mul_div_le _ 64) H more

/-! ### Absorbing a message -/

/-- The engine has absorbed the bytes `m` since it was fresh with HashState `H`: the whole blocks are in `h`, and the
rest is in the buffer (R62). -/
structure Absorbed (H : HashState) (m : List Byte) (s : State) : Prop where
  fsm : s.fsm = .idle
  fill : s.fill.toNat = m.length % 64
  total : s.total = BitVec.ofNat 64 m.length
  h : s.h = compressAll H m
  tail : ∀ j < m.length % 64, s.buf.read j = m.getD (64 * (m.length / 64) + j) 0

/-- A fresh engine has absorbed nothing. -/
theorem absorbed_nil {s : State} (hf : s.fsm = .idle) (hfill : s.fill = 0) (htotal : s.total = 0) :
    Absorbed s.h [] s where
  fsm := hf
  fill := by rw [hfill]; rfl
  total := htotal
  h := rfl
  tail := fun _ hj => absurd hj (Nat.not_lt_zero _)

section
variable {H : HashState} {m : List Byte} {s : State} (habs : Absorbed H m s)
include habs

theorem Absorbed.fill_lt : s.fill.toNat < 64 := habs.fill ▸ Nat.mod_lt _ (by decide)

theorem Absorbed.total_succ (d : Byte) : s.total + 1 = BitVec.ofNat 64 (m ++ [d]).length := by
  rw [habs.total, List.length_append, BitVec.ofNat_add]
  rfl

/-- The buffer with one more byte `d` stored at `fill` holds the tail of `m ++ [d]`. -/
theorem Absorbed.read_write_fill (d : Byte) {j : Nat} (hj : j ≤ m.length % 64) :
    (s.buf.write s.fill.toNat d).read j = (m ++ [d]).getD (64 * (m.length / 64) + j) 0 := by
  rw [Memory.read_write, habs.fill]
  by_cases hlast : j = m.length % 64
  · have hindex : 64 * (m.length / 64) + j = m.length := by omega
    rw [if_pos hlast, hindex, List.getD_append_right _ _ _ _ (Nat.le_refl _), Nat.sub_self]
    rfl
  · rw [if_neg hlast, habs.tail j (by omega), List.getD_append _ _ _ _ (by omega)]

/-- ABSORB adds its byte to the bytes absorbed, whether or not it completes a block. -/
theorem Absorbed.exec_absorb (d : Byte) : ∃ t, exec (.absorb d) s = .next t ∧ Absorbed H (m ++ [d]) t := by
  have hlt := habs.fill_lt
  have hfill := habs.fill
  have hlength : (m ++ [d]).length = m.length + 1 := List.length_append
  rw [exec_absorb_of_idle habs.fsm]
  by_cases hfull : s.fill = 63
  · have h63 := fill_eq_63.1 hfull
    have hdiv : (m ++ [d]).length / 64 = m.length / 64 + 1 := by omega
    have hmod : (m ++ [d]).length % 64 = 0 := by omega
    have hblock : (s.buf.write 63 d).block = blockAt (m ++ [d]) (m.length / 64) :=
      Memory.block_eq_tabulate fun j hj => h63 ▸ habs.read_write_fill d (by omega)
    rw [absorbEffect_of_eq hfull, compressBuffer_eq]
    refine ⟨_, rfl, habs.fsm, ?_, habs.total_succ d, ?_, ?_⟩
    · rw [hmod]
      rfl
    · rw [hblock, habs.h, compressAll_eq_compressFirst hdiv, compressFirst_succ, compressFirst_append_div]
    · exact fun j hj => absurd (hmod ▸ hj) (Nat.not_lt_zero j)
  · have hopen := fill_lt_63_of_ne hlt hfull
    have h63 := fill_lt_63.1 hopen
    have hdiv : (m ++ [d]).length / 64 = m.length / 64 := by omega
    have hmod : (m ++ [d]).length % 64 = m.length % 64 + 1 := by omega
    rw [absorbEffect_of_lt hopen]
    refine ⟨_, rfl, habs.fsm, ?_, habs.total_succ d, ?_, ?_⟩
    · show (s.fill + 1).toNat = _
      rw [hmod, ← hfill]
      bv_omega
    · rw [compressAll_eq_compressFirst hdiv, compressFirst_append_div]
      exact habs.h
    · intro j hj
      rw [hdiv]
      exact habs.read_write_fill d (by omega)

end

/-- The ABSORBs of `l` add the bytes of `l`, in order (R69). -/
theorem Absorbed.runCommands_absorbAll {H : HashState} {m : List Byte} {s : State} (habs : Absorbed H m s)
    (l : List Byte) : ∃ t, runCommands (absorbAll l) s = .next t ∧ Absorbed H (m ++ l) t := by
  induction l generalizing m s with
  | nil => exact ⟨s, rfl, by rwa [List.append_nil]⟩
  | cons d l ih =>
    obtain ⟨u, hexec, hu⟩ := habs.exec_absorb d
    obtain ⟨t, hrun, ht⟩ := ih hu
    refine ⟨t, ?_, List.append_cons m d l ▸ ht⟩
    rw [absorbAll, List.map_cons, runCommands, hexec]
    exact hrun

/-! ### The padded message -/

theorem trailer_ofNat (n : Nat) : trailer (BitVec.ofNat 64 n) = BitVec.ofNat 64 (8 * n) := by
  apply BitVec.eq_of_toNat_eq
  rw [toNat_trailer, BitVec.toNat_ofNat, BitVec.toNat_ofNat, Nat.mul_mod_mod]

theorem length_padMessage (m : List Byte) : (padMessage m).length = m.length + 1 + padZeroes m.length + 8 := by
  simp only [padMessage, List.length_append, List.length_cons, List.length_nil, List.length_replicate,
    bytesBe64_length]

/-- The padded message, part by part (R73). -/
theorem getD_padMessage (m : List Byte) (i : Nat) :
    (padMessage m).getD i 0 =
      if i < m.length then m.getD i 0
      else if i = m.length then 0x80
      else if i < m.length + 1 + padZeroes m.length then 0
      else (bytesBe64 (trailer (BitVec.ofNat 64 m.length))).getD (i - (m.length + 1 + padZeroes m.length)) 0 := by
  have hmarked : (m ++ [(0x80 : Byte)]).length = m.length + 1 := List.length_append
  have hzeroes : (m ++ [(0x80 : Byte)] ++ List.replicate (padZeroes m.length) 0).length =
      m.length + 1 + padZeroes m.length := by
    rw [List.length_append, hmarked, List.length_replicate]
  rw [padMessage, trailer_ofNat]
  by_cases htrailer : i < m.length + 1 + padZeroes m.length
  · rw [if_pos htrailer, List.getD_append _ _ _ _ (by omega)]
    by_cases hzero : i < m.length + 1
    · rw [List.getD_append _ _ _ _ (by omega)]
      by_cases hmessage : i < m.length
      · rw [if_pos hmessage, List.getD_append _ _ _ _ hmessage]
      · have hi : i = m.length := by omega
        rw [if_neg hmessage, if_pos hi, hi, List.getD_append_right _ _ _ _ (Nat.le_refl _), Nat.sub_self]
        rfl
    · rw [if_neg (by omega), if_neg (by omega), List.getD_append_right _ _ _ _ (by omega),
        List.getD_replicate _ (by omega)]
  · rw [if_neg (by omega), if_neg (by omega), if_neg htrailer, List.getD_append_right _ _ _ _ (by omega), hzeroes]

section
variable {H : HashState} {m : List Byte} {s : State} (habs : Absorbed H m s)
include habs

/-- Without overflow the last block of the padded message is the one block of a finalize. -/
theorem Absorbed.lastBlock_eq (h55 : m.length % 64 ≤ 55) :
    lastBlock s.fill.toNat s.buf.read s.total = blockAt (padMessage m) (m.length / 64) := by
  have hk : padZeroes m.length = 55 - m.length % 64 := by unfold padZeroes; omega
  refine tabulate_congr fun j hj => ?_
  have hmessage : 64 * (m.length / 64) + j < m.length ↔ j < m.length % 64 := by omega
  have hmarker : 64 * (m.length / 64) + j = m.length ↔ j = m.length % 64 := by omega
  have hzero : 64 * (m.length / 64) + j < m.length + 1 + (55 - m.length % 64) ↔ j < 56 := by omega
  have hoffset : 64 * (m.length / 64) + j - (m.length + 1 + (55 - m.length % 64)) = j - 56 := by omega
  rw [habs.fill, habs.total, getD_padMessage, hk, trailerByte]
  simp only [hmessage, hmarker, hzero, hoffset]
  split
  · exact habs.tail j ‹_›
  · rfl

/-- With overflow the last block but one of the padded message is the first block of a finalize. -/
theorem Absorbed.overflowBlock_eq (h55 : 55 < m.length % 64) :
    overflowBlock s.fill.toNat s.buf.read = blockAt (padMessage m) (m.length / 64) := by
  have hk : padZeroes m.length = 119 - m.length % 64 := by unfold padZeroes; omega
  refine tabulate_congr fun j hj => ?_
  have hmessage : 64 * (m.length / 64) + j < m.length ↔ j < m.length % 64 := by omega
  have hmarker : 64 * (m.length / 64) + j = m.length ↔ j = m.length % 64 := by omega
  have hzero : 64 * (m.length / 64) + j < m.length + 1 + (119 - m.length % 64) := by omega
  rw [habs.fill, getD_padMessage, hk]
  simp only [hmessage, hmarker, hzero, if_true]
  split
  · exact habs.tail j ‹_›
  · rfl

/-- With overflow the last block of the padded message is the second block of a finalize. -/
theorem Absorbed.trailerBlock_eq (h55 : 55 < m.length % 64) :
    trailerBlock s.total = blockAt (padMessage m) (m.length / 64 + 1) := by
  have hk : padZeroes m.length = 119 - m.length % 64 := by unfold padZeroes; omega
  refine tabulate_congr fun j hj => ?_
  have hmessage : ¬ 64 * (m.length / 64 + 1) + j < m.length := by omega
  have hmarker : ¬ 64 * (m.length / 64 + 1) + j = m.length := by omega
  have hzero : 64 * (m.length / 64 + 1) + j < m.length + 1 + (119 - m.length % 64) ↔ j < 56 := by omega
  have hoffset : 64 * (m.length / 64 + 1) + j - (m.length + 1 + (119 - m.length % 64)) = j - 56 := by omega
  rw [habs.total, getD_padMessage, hk, trailerByte, if_neg hmessage, if_neg hmarker]
  simp only [hzero, hoffset]

/-- A finalize after the bytes of `m` reaches the HashState of the padded message (R65, R73). -/
theorem Absorbed.finalHash_eq : finalHash s = compressAll H (padMessage m) := by
  have hlength := length_padMessage m
  have hprefix : compressFirst H (padMessage m) (m.length / 64) = s.h := by
    rw [habs.h, padMessage, List.append_assoc, List.append_assoc, compressFirst_append_div]
  by_cases h55 : m.length % 64 ≤ 55
  · have hdiv : (padMessage m).length / 64 = m.length / 64 + 1 := by
      unfold padZeroes at hlength
      omega
    rw [finalHash, finalBlocks_of_le (habs.fill ▸ h55), compressAll_eq_compressFirst hdiv, compressFirst_succ, hprefix,
      habs.lastBlock_eq h55]
    rfl
  · have hgt : 55 < m.length % 64 := by omega
    have hdiv : (padMessage m).length / 64 = m.length / 64 + 1 + 1 := by
      unfold padZeroes at hlength
      omega
    rw [finalHash, finalBlocks_of_gt (habs.fill ▸ hgt), compressAll_eq_compressFirst hdiv, compressFirst_succ,
      compressFirst_succ, hprefix, habs.overflowBlock_eq hgt, habs.trailerBlock_eq hgt]
    rfl

end

/-! ### The hash of a message -/

/-- FINAL and FINALR in IDLE both show the digest of `finalHash` (R63 to R65). -/
theorem exec_finalize_of_idle {i : Instr} {s : State} (hi : isFinalize i = true) (hf : s.fsm = .idle)
    (hlt : s.fill.toNat < 64) : ∃ t, exec i s = .next t ∧ t.dig = digestOf (finalHash s) ∧ t.digValid = true := by
  cases i with
  | init _ => cases hi
  | absorb _ => cases hi
  | final d => exact ⟨_, exec_final_of_idle hf hlt d, rfl, rfl⟩
  | finalr d => exact ⟨_, exec_finalr_of_idle hf hlt d, rfl, rfl⟩

/-- A fresh engine that takes a message and a finalize shows the hash of the message. -/
theorem runCommands_message {s : State} (hf : s.fsm = .idle) (hh : s.h = iv) (hfill : s.fill = 0)
    (htotal : s.total = 0) (m : List Byte) {last : Instr} (hlast : isFinalize last = true) :
    ∃ t, runCommands (absorbAll m ++ [last]) s = .next t ∧ t.dig = hashMessage m ∧ t.digValid = true := by
  obtain ⟨u, hrun, habs⟩ := (hh ▸ absorbed_nil hf hfill htotal).runCommands_absorbAll m
  rw [List.nil_append] at habs
  obtain ⟨t, hexec, hdig, hvalid⟩ := exec_finalize_of_idle hlast habs.fsm habs.fill_lt
  refine ⟨t, ?_, ?_, hvalid⟩
  · rw [runCommands_append, hrun, andThen_next, runCommands, hexec]
    rfl
  · rw [hdig, habs.finalHash_eq, hashMessage]

theorem padZeroes_spec (n : Nat) :
    (n + 1 + padZeroes n) % 64 = 56 ∧ ∀ k, (n + 1 + k) % 64 = 56 → padZeroes n ≤ k := by
  unfold padZeroes
  refine ⟨?_, fun k hk => ?_⟩ <;> omega

/-- Settles O53: INIT and a reset edge both leave a fresh engine, and that engine takes the message. -/
theorem streamHashesMessage : Obligations.StreamHashesMessage := by
  refine ⟨padZeroes_spec, fun d m last s _ hlast => ⟨fun _ hready => ?_, fun p hp => ?_⟩⟩
  · obtain ⟨t, hrun, hdigest⟩ := runCommands_message (s := create s) rfl rfl rfl rfl m hlast
    refine ⟨t, ?_, hdigest⟩
    rw [List.cons_append, runCommands, exec_init_of_ready hready, andThen_next, hrun]
  · obtain ⟨t, hrun, hdigest⟩ := runCommands_message (s := hardReset s) rfl rfl rfl rfl m hlast
    exact ⟨_, t, clockEdge_of_reset s hp, rfl, hrun, hdigest⟩

/-! ### The compressions of a message -/

theorem sumOver_cons {cost : Instr → State → Nat} {i : Instr} {s t : State} (h : exec i s = .next t)
    (is : List Instr) : sumOver cost (i :: is) s = cost i s + sumOver cost is t := by
  rw [sumOver, h]

/-- The cost of a stream in two parts. -/
theorem sumOver_append {cost : Instr → State → Nat} {is : List Instr} {s t : State} (h : runCommands is s = .next t)
    (js : List Instr) : sumOver cost (is ++ js) s = sumOver cost is s + sumOver cost js t := by
  induction is generalizing s with
  | nil =>
    cases h
    rw [List.nil_append, sumOver, Nat.zero_add]
  | cons i is ih =>
    obtain ⟨u, hexec, hrun⟩ := andThen_eq_next.1 h
    rw [List.cons_append, sumOver_cons hexec, sumOver_cons hexec, ih hrun, Nat.add_assoc]

theorem compressions_absorb_of_idle {s : State} (hf : s.fsm = .idle) (d : Byte) :
    compressions (.absorb d) s = if s.fill = 63 then 1 else 0 := by
  simp only [compressions, hf]

theorem compressions_finalize_of_idle {i : Instr} {s : State} (hi : isFinalize i = true) (hf : s.fsm = .idle) :
    compressions i s = if s.fill.toNat ≤ 55 then 1 else 2 := by
  cases i with
  | init _ => cases hi
  | absorb _ => cases hi
  | final _ => simp only [compressions, hf]
  | finalr _ => simp only [compressions, hf]

/-- Each block is compressed by the ABSORB of its last byte. -/
theorem Absorbed.streamCompressions_absorbAll {H : HashState} {m : List Byte} {s : State} (habs : Absorbed H m s)
    (l : List Byte) : m.length / 64 + streamCompressions (absorbAll l) s = (m.length + l.length) / 64 := by
  induction l generalizing m s with
  | nil => rfl
  | cons d l ih =>
    obtain ⟨u, hexec, hu⟩ := habs.exec_absorb d
    have hrest := ih hu
    have hfill := habs.fill
    rw [List.length_append] at hrest
    rw [absorbAll, List.map_cons, streamCompressions, sumOver_cons hexec, compressions_absorb_of_idle habs.fsm,
      List.length_cons]
    simp only [streamCompressions, absorbAll, List.length_singleton] at hrest
    by_cases hfull : s.fill = 63
    · rw [if_pos hfull]
      rw [fill_eq_63] at hfull
      omega
    · rw [if_neg hfull]
      rw [fill_eq_63] at hfull
      omega

/-- Settles O54: the blocks of the ABSORBs, then those of the finalize at the fill-count that is left. -/
theorem compressionCount : Obligations.CompressionCount := by
  intro m last s hlast _ hf hfill htotal
  have habs := absorbed_nil hf hfill htotal
  obtain ⟨t, hrun, ht⟩ := habs.runCommands_absorbAll m
  rw [List.nil_append] at ht
  have habsorbs := habs.streamCompressions_absorbAll m
  simp only [List.length_nil, Nat.zero_div, Nat.zero_add] at habsorbs
  have hfinalize : streamCompressions [last] t = if m.length % 64 > 55 then 2 else 1 := by
    obtain ⟨u, hexec, -⟩ := exec_finalize_of_idle hlast ht.fsm ht.fill_lt
    rw [streamCompressions, sumOver_cons hexec, sumOver, compressions_finalize_of_idle hlast ht.fsm, ht.fill]
    split <;> split <;> omega
  have hall : streamCompressions (absorbAll m ++ [last]) s =
      m.length / 64 + if m.length % 64 > 55 then 2 else 1 := by
    rw [streamCompressions, sumOver_append hrun, ← streamCompressions, ← streamCompressions, habsorbs, hfinalize]
  refine ⟨habsorbs, hall, ?_⟩
  rw [hall]
  split <;> omega

end Sys2Proof.Machine
end

section
/-!
PROOF. Stale state (spec/40_commands.md rules R70 and R71, spec/10_state.md rules R35 and R50): the bytes from `fill`
up, the old digest and the pipeline's registers are written before they are read, so two engines that differ in these alone
cannot be told apart.
-/

namespace Sys2Proof.Machine

/-! ### What the host observes -/

/-- Two states that show the same digest: the same `dig_valid` and, while it is set, the same `dig` (R123). -/
structure SameDigest (s s' : State) : Prop where
  digValid : s.digValid = s'.digValid
  dig : s.digValid = true → s.dig = s'.dig

/-- Equal observations show the same digest. -/
theorem sameDigest_of_observe {s s' : State} (h : s.observe = s'.observe) : SameDigest s s' := by
  obtain ⟨hdig, hvalid, -⟩ := Observation.mk.inj h
  refine ⟨hvalid, fun hv => ?_⟩
  rw [if_pos hv, if_pos (hvalid ▸ hv)] at hdig
  exact Option.some.inj hdig

/-- The observation is the digest shown, `dig_valid` and a status vector read off `fsm`, `err` and `dig_valid`. -/
theorem observe_eq {s s' : State} (h : SameEngine s s') (hd : SameDigest s s') : s.observe = s'.observe := by
  have hstatus : s.status = s'.status := by
    simp only [State.status, State.consumed, State.busy, h.fsm, h.err, hd.digValid]
  have hdig : (if s.digValid then some s.dig else none) = if s'.digValid then some s'.dig else none := by
    rw [← hd.digValid]
    split
    · rw [hd.dig ‹_›]
    · rfl
  rw [State.observe, State.observe, hstatus, hdig, hd.digValid]

theorem cmdReady_eq {s s' : State} (h : SameEngine s s') (rst : Bool) : s.cmdReady rst = s'.cmdReady rst := by
  rw [State.cmdReady, State.cmdReady, h.fsm]

/-! ### Buffers that agree below the fill-count -/

/-- Two buffers that agree below `p` agree below `p + 1` once the same byte is written at `p`. -/
theorem read_write_agree {m m' : Memory} {p : Nat} (h : ∀ j < p, m.read j = m'.read j) (v : Byte) :
    ∀ j < p + 1, (m.write p v).read j = (m'.write p v).read j := by
  intro j hj
  rw [Memory.read_write, Memory.read_write]
  split
  · rfl
  · exact h j (by omega)

theorem block_eq {m m' : Memory} (h : ∀ j < 64, m.read j = m'.read j) : m.block = m'.block :=
  tabulate_congr h

/-- The blocks of a finalize do not depend on the bytes from the fill-count up. -/
theorem finalBlocks_agree {p : Nat} {f g : Nat → Byte} (h : ∀ j < p, f j = g j) (total : Length) :
    finalBlocks p f total = finalBlocks p g total := by
  by_cases hp : p ≤ 55
  · rw [finalBlocks_of_le hp, finalBlocks_of_le hp]
    refine congrArg (fun B : Block => [B]) (tabulate_congr fun j _ => ?_)
    split
    · exact h j ‹_›
    · rfl
  · rw [finalBlocks_of_gt (by omega), finalBlocks_of_gt (by omega)]
    refine congrArg (fun B : Block => [B, trailerBlock total]) (tabulate_congr fun j _ => ?_)
    split
    · exact h j ‹_›
    · rfl

/-- An empty buffer holds no byte of a message. -/
theorem read_agree_of_empty {x : BitVec 7} (h : x = 0) (m m' : Memory) : ∀ j < x.toNat, m.read j = m'.read j := by
  intro j hj
  rw [h] at hj
  exact absurd hj (Nat.not_lt_zero j)

section
variable {s s' : State} (h : SameEngine s s')
include h

theorem SameEngine.ready (hready : s.Ready) : s'.Ready := by
  rwa [State.Ready, ← h.fsm]

theorem SameEngine.finalHash_eq : finalHash s = finalHash s' := by
  rw [finalHash, finalHash, finalBlocks_agree h.bytes, h.fill, h.total, h.h]

/-- A byte stored at `fill` in both buffers. -/
theorem SameEngine.write_bytes (v : Byte) : ∀ j < s.fill.toNat + 1,
    (s.buf.write s.fill.toNat v).read j = (s'.buf.write s'.fill.toNat v).read j :=
  h.fill ▸ read_write_agree h.bytes v

end

/-! ### One command on two engines -/

/-- Two outcomes of one command: both go on, to engines that no later digest tells apart, that show the same digest if
the engines before them, `s` and `s'`, did, and after a finalize in IDLE in any case. -/
def SameOutcome (i : Instr) (s s' : State) : Prop :=
  ∃ t t', exec i s = .next t ∧ exec i s' = .next t' ∧ SameEngine t t' ∧ (SameDigest s s' → SameDigest t t') ∧
    (isFinalize i = true → s.fsm = .idle → t.dig = t'.dig)

/-- INIT makes both engines fresh. -/
theorem sameOutcome_init {s s' : State} (hready : s.Ready) (h : SameEngine s s') (d : Byte) :
    SameOutcome (.init d) s s' := by
  exact ⟨_, _, exec_init_of_ready hready d, exec_init_of_ready (h.ready hready) d,
    ⟨rfl, rfl, rfl, rfl, rfl, read_agree_of_empty rfl _ _⟩, fun _ => ⟨rfl, nofun⟩, nofun⟩

/-- ABSORB stores the same byte in both buffers; a block it completes is the same in both. -/
theorem sameOutcome_absorb {s s' : State} (hi : Inv s) (hf : s.fsm = .idle) (h : SameEngine s s') (d : Byte) :
    SameOutcome (.absorb d) s s' := by
  have hf' : s'.fsm = .idle := h.fsm ▸ hf
  have h63 : s.fill.toNat ≤ 63 := fill_le_63.1 (hi.idle_fill hf)
  have htotal : s.total + 1 = s'.total + 1 := congrArg (· + 1) h.total
  by_cases hfull : s.fill = 63
  · have hfull' : s'.fill = 63 := h.fill ▸ hfull
    have hblock : (s.buf.write 63 d).block = (s'.buf.write 63 d).block := by
      have hwrite := h.write_bytes d
      rw [fill_eq_63.1 hfull, fill_eq_63.1 hfull'] at hwrite
      exact block_eq hwrite
    have hcompress : compress s.h (s.buf.write 63 d).block = compress s'.h (s'.buf.write 63 d).block := by
      rw [h.h, hblock]
    refine ⟨_, _, (exec_absorb_of_idle hf d).trans (absorbEffect_of_eq hfull),
      (exec_absorb_of_idle hf' d).trans (absorbEffect_of_eq hfull'), ?_⟩
    rw [compressBuffer_eq, compressBuffer_eq]
    exact ⟨⟨hcompress, rfl, htotal, h.fsm, h.err, read_agree_of_empty rfl _ _⟩,
      fun hd => ⟨hd.digValid, hd.dig⟩, nofun⟩
  · have hopen := fill_lt_63_of_ne (by omega) hfull
    have hfill : (s.fill + 1).toNat = s.fill.toNat + 1 := by bv_omega
    refine ⟨_, _, (exec_absorb_of_idle hf d).trans (absorbEffect_of_lt hopen),
      (exec_absorb_of_idle hf' d).trans (absorbEffect_of_lt (h.fill ▸ hopen)), ?_⟩
    exact ⟨⟨h.h, congrArg (· + 1) h.fill, htotal, h.fsm, h.err, fun j hj => h.write_bytes d j (hfill ▸ hj)⟩,
      fun hd => ⟨hd.digValid, hd.dig⟩, nofun⟩

/-- A finalize compresses the same blocks in both engines and empties both buffers. -/
theorem sameOutcome_finalize {i : Instr} {s s' : State} (hfin : isFinalize i = true) (hi : Inv s) (hf : s.fsm = .idle)
    (h : SameEngine s s') : SameOutcome i s s' := by
  have hf' : s'.fsm = .idle := h.fsm ▸ hf
  have hlt := fill_lt_64_of_le (hi.idle_fill hf)
  have hlt' : s'.fill.toNat < 64 := h.fill ▸ hlt
  have hdig : digestOf (finalHash s) = digestOf (finalHash s') := congrArg digestOf h.finalHash_eq
  cases i with
  | init _ => cases hfin
  | absorb _ => cases hfin
  | final d =>
    exact ⟨_, _, exec_final_of_idle hf hlt d, exec_final_of_idle hf' hlt' d,
      ⟨h.finalHash_eq, rfl, h.total, rfl, h.err, read_agree_of_empty rfl _ _⟩, fun _ => ⟨rfl, fun _ => hdig⟩,
      fun _ _ => hdig⟩
  | finalr d =>
    exact ⟨_, _, exec_finalr_of_idle hf hlt d, exec_finalr_of_idle hf' hlt' d,
      ⟨rfl, rfl, rfl, h.fsm, h.err, read_agree_of_empty rfl _ _⟩, fun _ => ⟨rfl, fun _ => hdig⟩, fun _ _ => hdig⟩

/-- A CmdError sets `err` in both engines and changes nothing else. -/
theorem sameOutcome_error {i : Instr} {s s' : State} (hf : s.fsm = .done) (h : SameEngine s s')
    (hinit : ∀ d, i ≠ .init d) : SameOutcome i s s' :=
  ⟨_, _, exec_of_done hf hinit, exec_of_done (h.fsm ▸ hf) hinit, ⟨h.h, h.fill, h.total, h.fsm, rfl, h.bytes⟩,
    fun hd => ⟨hd.digValid, hd.dig⟩, fun _ hidle => by simp [hf] at hidle⟩

/-- Every command keeps two engines alike. -/
theorem exec_sameOutcome {s s' : State} (hi : Inv s) (hready : s.Ready) (h : SameEngine s s') (i : Instr) :
    SameOutcome i s s' := by
  obtain hf | hf := (fsm_ready_iff _).1 hready
  · cases i with
    | init d => exact sameOutcome_init hready h d
    | absorb d => exact sameOutcome_absorb hi hf h d
    | final d => exact sameOutcome_finalize rfl hi hf h
    | finalr d => exact sameOutcome_finalize rfl hi hf h
  · cases i with
    | init d => exact sameOutcome_init hready h d
    | absorb d => exact sameOutcome_error hf h nofun
    | final d => exact sameOutcome_error hf h nofun
    | finalr d => exact sameOutcome_error hf h nofun

/-! ### Streams -/

theorem firstDigest_cons {i : Instr} {s t : State} (h : exec i s = .next t) (is : List Instr) :
    firstDigest (i :: is) s = if isFinalize i && s.fsm == .idle then some t.dig else firstDigest is t := by
  rw [firstDigest, h]

/-- A stream keeps two engines alike, and its first digest is the same from both. -/
theorem runCommands_sameEngine (is : List Instr) {s s' : State} (hi : Inv s) (hready : s.Ready)
    (h : SameEngine s s') : firstDigest is s = firstDigest is s' ∧
      ∃ t t', runCommands is s = .next t ∧ runCommands is s' = .next t' ∧ SameEngine t t' ∧
        (SameDigest s s' → SameDigest t t') := by
  induction is generalizing s s' with
  | nil => exact ⟨rfl, s, s', rfl, rfl, h, id⟩
  | cons i is ih =>
    obtain ⟨u, u', hexec, hexec', hsame, hdigest, hfirst⟩ := exec_sameOutcome hi hready h i
    obtain ⟨hrest, t, t', hrun, hrun', ht, hdigest'⟩ := ih (inv_of_exec hi hexec) (exec_ready hready hexec) hsame
    refine ⟨?_, t, t', ?_, ?_, ht, hdigest' ∘ hdigest⟩
    · rw [firstDigest_cons hexec, firstDigest_cons hexec', hrest, ← h.fsm]
      by_cases hfin : (isFinalize i && s.fsm == .idle) = true
      · rw [if_pos hfin, if_pos hfin]
        rw [Bool.and_eq_true, beq_iff_eq] at hfin
        rw [hfirst hfin.1 hfin.2]
      · rw [if_neg hfin, if_neg hfin]
    · rw [runCommands, hexec, andThen_next, hrun]
    · rw [runCommands, hexec', andThen_next, hrun']

/-! ### Edges -/

/-- Two blocks no later edge can tell apart (R35): the same engine, the same controller, the same digest shown, and the
same working registers and window while a block is in the rounds. -/
structure SameBlock (s s' : State) : Prop extends SameEngine s s', SameDigest s s' where
  t : s.t = s'.t
  ret : s.ret = s'.ret
  fkind : s.fkind = s'.fkind
  rounds : s.fsm = .round ∨ s.fsm = .accum → s.work = s'.work ∧ s.window = s'.window

/-- Both outcomes go on, to blocks no later edge can tell apart. -/
def SameNext (r r' : Result) : Prop := ∃ t t', r = .next t ∧ r' = .next t' ∧ SameBlock t t'

/-- A reset edge makes any two blocks alike (R117). -/
theorem hardReset_sameBlock (s s' : State) : SameBlock (hardReset s) (hardReset s') where
  h := rfl
  fill := rfl
  total := rfl
  fsm := rfl
  err := rfl
  bytes := read_agree_of_empty rfl _ _
  digValid := rfl
  dig := nofun
  t := rfl
  ret := rfl
  fkind := rfl
  rounds := nofun

/-- ACCUM with a used code of `ret` (R93). -/
theorem accumRule_of_used {s : State} (hret : s.ret ≠ .unused) :
    accumRule s = .next { s with h := accumulate s.h s.work, fsm := s.ret.next } := by
  unfold accumRule
  cases hr : s.ret
  case unused => exact absurd hr hret
  all_goals rfl

section
variable {s s' : State} (h : SameBlock s s')
include h

theorem create_sameNext : SameNext (.next (create s)) (.next (create s')) :=
  ⟨_, _, rfl, rfl, ⟨rfl, rfl, rfl, rfl, rfl, read_agree_of_empty rfl _ _⟩, ⟨rfl, nofun⟩, h.t, h.ret, h.fkind, nofun⟩

theorem raiseCmdError_sameNext : SameNext (.next (raiseCmdError s)) (.next (raiseCmdError s')) :=
  ⟨_, _, rfl, rfl, ⟨h.h, h.fill, h.total, h.fsm, rfl, h.bytes⟩, ⟨h.digValid, h.dig⟩, h.t, h.ret, h.fkind, h.rounds⟩

/-- IDLE accepting a finalize (R88). -/
theorem startFinalize_sameNext (kind : Bool) :
    SameNext (.next { s with fkind := kind, digValid := false, fsm := .pad1 })
      (.next { s' with fkind := kind, digValid := false, fsm := .pad1 }) :=
  ⟨_, _, rfl, rfl, ⟨h.h, h.fill, h.total, rfl, h.err, h.bytes⟩, ⟨rfl, nofun⟩, h.t, h.ret, rfl, nofun⟩

/-- IDLE accepting an ABSORB: the bytes below the new fill-count agree (R88). -/
theorem idleRule_absorb_sameNext (h63 : s.fill.toNat ≤ 63) (d : Byte) :
    SameNext (idleRule (.absorb d) s) (idleRule (.absorb d) s') := by
  have hfill : (s.fill + 1).toNat = s.fill.toNat + 1 := by bv_omega
  have hbytes : ∀ j < (s.fill + 1).toNat,
      (s.buf.write s.fill.toNat d).read j = (s'.buf.write s'.fill.toNat d).read j :=
    fun j hj => h.write_bytes d j (hfill ▸ hj)
  have hfill' : s.fill + 1 = s'.fill + 1 := congrArg (· + 1) h.fill
  have htotal : s.total + 1 = s'.total + 1 := congrArg (· + 1) h.total
  rw [idleRule, idleRule, storeByte_of_lt (by omega), storeByte_of_lt (h.fill ▸ (by omega : s.fill.toNat < 64)),
    andThen_next, andThen_next, ← h.fill]
  rw [← h.fill] at hbytes hfill'
  by_cases hfull : s.fill = 63
  · rw [if_pos hfull, if_pos hfull]
    exact ⟨_, _, rfl, rfl, ⟨h.h, hfill', htotal, rfl, h.err, hbytes⟩, ⟨h.digValid, h.dig⟩, h.t, rfl, h.fkind, nofun⟩
  · rw [if_neg hfull, if_neg hfull]
    exact ⟨_, _, rfl, rfl, ⟨h.h, hfill', htotal, h.fsm, h.err, hbytes⟩, ⟨h.digValid, h.dig⟩, h.t, h.ret, h.fkind,
      h.rounds⟩

theorem idleRule_sameNext (h63 : s.fill.toNat ≤ 63) (i : Instr) :
    SameNext (idleRule i s) (idleRule i s') := by
  cases i with
  | init _ => exact create_sameNext h
  | absorb d => exact idleRule_absorb_sameNext h h63 d
  | final _ => exact startFinalize_sameNext h false
  | finalr _ => exact startFinalize_sameNext h true

theorem doneRule_sameNext (i : Instr) : SameNext (doneRule i s) (doneRule i s') := by
  cases i with
  | init _ => exact create_sameNext h
  | absorb _ => exact raiseCmdError_sameNext h
  | final _ => exact raiseCmdError_sameNext h
  | finalr _ => exact raiseCmdError_sameNext h

/-- PAD1: the marker, and after it either no byte or the zeros up to the end of the block (R89). -/
theorem pad1Rule_sameNext (h63 : s.fill.toNat ≤ 63) : SameNext (pad1Rule s) (pad1Rule s') := by
  have hwrite := h.write_bytes 0x80
  rw [pad1Rule, pad1Rule, storeByte_of_lt (by omega), storeByte_of_lt (h.fill ▸ (by omega : s.fill.toNat < 64)),
    andThen_next, andThen_next]
  rw [← h.fill] at hwrite ⊢
  by_cases h55 : Config.lastFillWithoutOverflow < s.fill.toNat
  · have hbytes : ∀ j < (64 : BitVec 7).toNat, (zeroAfter s.fill.toNat (s.buf.write s.fill.toNat 0x80)).read j =
        (zeroAfter s.fill.toNat (s'.buf.write s.fill.toNat 0x80)).read j := by
      intro j (hj : j < 64)
      rw [read_zeroAfter, read_zeroAfter]
      split
      · rfl
      · exact hwrite j (by omega)
    rw [if_pos h55, if_pos h55]
    exact ⟨_, _, rfl, rfl, ⟨h.h, rfl, h.total, rfl, h.err, hbytes⟩, ⟨h.digValid, h.dig⟩, h.t, rfl, h.fkind, nofun⟩
  · have hfill : (s.fill + 1).toNat = s.fill.toNat + 1 := by bv_omega
    rw [if_neg h55, if_neg h55]
    exact ⟨_, _, rfl, rfl, ⟨h.h, rfl, h.total, rfl, h.err, fun j hj => hwrite j (hfill ▸ hj)⟩, ⟨h.digValid, h.dig⟩,
      h.t, h.ret, h.fkind, nofun⟩

/-- PAD2: the zeros and the trailer after the bytes below `fill` (R90). -/
theorem pad2Rule_sameNext (h56 : s.fill.toNat ≤ 56) : SameNext (pad2Rule s) (pad2Rule s') := by
  have hbytes : ∀ j < (64 : BitVec 7).toNat, (writeTrailer s.fill.toNat s.total s.buf).read j =
      (writeTrailer s'.fill.toNat s'.total s'.buf).read j := by
    intro j (hj : j < 64)
    rw [← h.fill, ← h.total, read_writeTrailer h56, read_writeTrailer h56]
    split
    · rfl
    · split
      · rfl
      · exact h.bytes j (by omega)
  exact ⟨_, _, rfl, rfl, ⟨h.h, rfl, h.total, rfl, h.err, hbytes⟩, ⟨h.digValid, h.dig⟩, h.t, rfl, h.fkind, nofun⟩

/-- LOAD reads the whole buffer, which is full (R91). -/
theorem loadRule_sameNext (hfull : s.fill = 64) : SameNext (loadRule s) (loadRule s') := by
  have hbytes : ∀ j < 64, s.buf.read j = s'.buf.read j := fun j hj => h.bytes j (by rw [hfull]; exact hj)
  have hwords : s.buf.words = s'.buf.words := by rw [Memory.words_eq, Memory.words_eq, block_eq hbytes]
  exact ⟨_, _, rfl, rfl, ⟨h.h, rfl, h.total, rfl, h.err, read_agree_of_empty rfl _ _⟩, ⟨h.digValid, h.dig⟩, rfl, h.ret,
    h.fkind, fun _ => ⟨congrArg loadWorking h.h, hwords⟩⟩

/-- ROUND reads the working registers, the window and `t` (R92). -/
theorem roundRule_sameNext (hf : s.fsm = .round) : SameNext (roundRule s) (roundRule s') := by
  obtain ⟨hwork, hwindow⟩ := h.rounds (.inl hf)
  rw [roundRule, roundRule, ← hwork, ← hwindow, ← h.t]
  exact ⟨_, _, rfl, rfl, ⟨h.h, h.fill, h.total, rfl, h.err, h.bytes⟩, ⟨h.digValid, h.dig⟩, rfl, h.ret, h.fkind,
    fun _ => ⟨rfl, rfl⟩⟩

/-- ACCUM reads `H`, the working registers and `ret` (R93). -/
theorem accumRule_sameNext (hf : s.fsm = .accum) (hret : s.ret ≠ .unused) :
    SameNext (accumRule s) (accumRule s') := by
  obtain ⟨hwork, hwindow⟩ := h.rounds (.inr hf)
  have hh : accumulate s.h s.work = accumulate s'.h s'.work := by rw [h.h, hwork]
  rw [accumRule_of_used hret, accumRule_of_used (h.ret ▸ hret)]
  exact ⟨_, _, rfl, rfl, ⟨hh, h.fill, h.total, congrArg Ret.next h.ret, h.err, h.bytes⟩, ⟨h.digValid, h.dig⟩, h.t,
    h.ret, h.fkind, fun _ => ⟨hwork, hwindow⟩⟩

/-- FINISH reads `H` and `fkind` (R94). -/
theorem finishRule_sameNext : SameNext (finishRule s) (finishRule s') := by
  have hdig : digestOf s.h = digestOf s'.h := congrArg digestOf h.h
  rw [finishRule, finishRule, ← h.fkind]
  split
  · exact ⟨_, _, rfl, rfl, ⟨rfl, rfl, rfl, rfl, h.err, read_agree_of_empty rfl _ _⟩, ⟨rfl, fun _ => hdig⟩, h.t, h.ret,
      rfl, nofun⟩
  · exact ⟨_, _, rfl, rfl, ⟨h.h, h.fill, h.total, rfl, h.err, h.bytes⟩, ⟨rfl, fun _ => hdig⟩, h.t, h.ret, rfl, nofun⟩

/-- Every edge keeps two blocks alike, of which one meets the invariant. -/
theorem clockEdge_sameNext (hi : Inv s) (p : PortIn) : SameNext (clockEdge p s) (clockEdge p s') := by
  cases hp : p.rst with
  | true =>
    rw [clockEdge_of_reset s hp, clockEdge_of_reset s' hp]
    exact ⟨_, _, rfl, rfl, hardReset_sameBlock s s'⟩
  | false =>
    obtain ⟨hload, hround, haccum, hpad1, hpad2, hfinish⟩ := clockEdge_of_busy (s := s) hp
    obtain ⟨hload', hround', haccum', hpad1', hpad2', hfinish'⟩ := clockEdge_of_busy (s := s') hp
    have hhold : SameNext (.next s) (.next s') := ⟨s, s', rfl, rfl, h⟩
    cases hf : s.fsm <;> have hf' := h.fsm ▸ hf
    case idle =>
      rw [clockEdge_of_idle hp hf, clockEdge_of_idle hp hf']
      split
      · exact idleRule_sameNext h (fill_le_63.1 (hi.idle_fill hf)) _
      · exact hhold
    case done =>
      rw [clockEdge_of_done hp hf, clockEdge_of_done hp hf']
      split
      · exact doneRule_sameNext h _
      · exact hhold
    case load => exact hload hf ▸ hload' hf' ▸ loadRule_sameNext h (hi.load_full hf)
    case round => exact hround hf ▸ hround' hf' ▸ roundRule_sameNext h hf
    case accum => exact haccum hf ▸ haccum' hf' ▸ accumRule_sameNext h hf hi.ret_used
    case pad1 => exact hpad1 hf ▸ hpad1' hf' ▸ pad1Rule_sameNext h (fill_le_63.1 (hi.pad1_fill hf))
    case pad2 => exact hpad2 hf ▸ hpad2' hf' ▸ pad2Rule_sameNext h (fill_le_56.1 (hi.pad2_fill hf))
    case finish => exact hfinish hf ▸ hfinish' hf' ▸ finishRule_sameNext h

end

/-- Every run of edges keeps two blocks alike, of which one meets the invariant. -/
theorem runEdges_sameNext (ps : List PortIn) {s s' : State} (hi : Inv s) (h : SameBlock s s') :
    SameNext (runEdges ps s) (runEdges ps s') := by
  induction ps generalizing s s' with
  | nil => exact ⟨s, s', rfl, rfl, h⟩
  | cons p ps ih =>
    obtain ⟨t, t', hedge, hedge', ht⟩ := clockEdge_sameNext h hi p
    rw [runEdges, runEdges, hedge, hedge', andThen_next, andThen_next]
    exact ih (inv_of_clockEdge hi hedge) ht

/-- After a reset edge in any state, a run goes as the run from the state after reset goes. -/
theorem runEdges_after_reset {p : PortIn} (hp : p.rst = true) (ps : List PortIn) (s : State) :
    SameNext (runEdges ps State.reset) (runEdges (p :: ps) s) := by
  rw [runEdges, clockEdge_of_reset s hp, andThen_next]
  exact runEdges_sameNext ps resetMeetsInv (hardReset_sameBlock State.reset s)

/-- Settles O56: commands keep two engines alike; and after a reset edge both runs are alike to the one from
`State.reset`. -/
theorem staleStateNeverMatters : Obligations.StaleStateNeverMatters := by
  refine ⟨fun is s s' hi _ hready h => ?_, fun p ps s s' hp => ?_⟩
  · obtain ⟨hfirst, t, t', hrun, hrun', hsame, hdigest⟩ := runCommands_sameEngine is hi hready h
    exact ⟨hfirst, t, t', hrun, hrun', hsame, fun ho => observe_eq hsame (hdigest (sameDigest_of_observe ho))⟩
  · obtain ⟨u, t, hfresh, hrun, ht⟩ := runEdges_after_reset hp ps s
    obtain ⟨_, t', hfresh', hrun', ht'⟩ := runEdges_after_reset hp ps s'
    obtain rfl := Host.Outcome.next.inj (hfresh.symm.trans hfresh')
    refine ⟨t, t', hrun, hrun', ?_, fun rst => ?_⟩
    · exact (observe_eq ht.toSameEngine ht.toSameDigest).symm.trans (observe_eq ht'.toSameEngine ht'.toSameDigest)
    · exact (cmdReady_eq ht.toSameEngine rst).symm.trans (cmdReady_eq ht'.toSameEngine rst)

/-! ### FINALR against INIT -/

/-- A stream with a finalize, from an engine that is not consumed, gives a digest: no command but a finalize leaves
IDLE. -/
theorem firstDigest_isSome (is : List Instr) {s : State} (hi : Inv s) (hf : s.fsm = .idle)
    (hfin : ∃ i ∈ is, isFinalize i = true) : ∃ dig, firstDigest is s = some dig := by
  induction is generalizing s with
  | nil => exact absurd hfin (by simp)
  | cons i is ih =>
    obtain ⟨t, hexec, ht⟩ := exec_inv hi i
    rw [firstDigest_cons hexec, hf]
    by_cases hlast : isFinalize i = true
    · exact ⟨t.dig, by rw [hlast]; rfl⟩
    · have hidle : t.fsm = .idle := by
        cases i with
        | init d =>
          rw [exec_init_of_ready (congrArg Fsm.ready hf)] at hexec
          cases hexec
          rfl
        | absorb d => exact (fsm_of_exec_absorb hexec).trans hf
        | final _ => exact absurd rfl hlast
        | finalr _ => exact absurd rfl hlast
      obtain ⟨j, hj, hjfin⟩ := hfin
      have hrest : ∃ j ∈ is, isFinalize j = true := by
        rcases List.mem_cons.1 hj with rfl | hj
        · exact absurd hjfin hlast
        · exact ⟨j, hj, hjfin⟩
      rw [Bool.not_eq_true] at hlast
      rw [hlast]
      exact ih ht hidle hrest

/-- Settles O57: both leave the same fresh engine, and a fresh engine is in IDLE. -/
theorem finalrIsEquivalentToInit : Obligations.FinalrIsEquivalentToInit := by
  intro d s s' hi hi' hf hready'
  have hexec := exec_finalr_of_idle hf (fill_lt_64_of_le (hi.idle_fill hf)) d
  have herr : s.err = false := hi.err_false (by simp [hf])
  have hsame : SameEngine (create s') (afterFinalr s) :=
    ⟨rfl, rfl, rfl, hf.symm, herr.symm, read_agree_of_empty rfl _ _⟩
  have hconsumed : (afterFinalr s).consumed = (create s').consumed := by
    rw [State.consumed, State.consumed, hsame.fsm]
  refine ⟨_, _, hexec, exec_init_of_ready hready' d, rfl, rfl, rfl, herr, hconsumed, fun is hfin => ?_⟩
  obtain ⟨dig, hdig⟩ := firstDigest_isSome is (create_inv hi') rfl hfin
  obtain ⟨hfirst, -⟩ := runCommands_sameEngine is (create_inv hi') rfl hsame
  exact ⟨dig, hfirst.symm.trans hdig, hdig⟩

end Sys2Proof.Machine
end

section
/-!
PROOF. A command on the clocked port (spec/42_controller_fsm.md rules R87 to R98, spec/70_reset_and_hazards.md rule
R125): the edge that accepts it and its busy cycles end in the state of the command's transaction-level meaning.
-/

namespace Sys2Proof.Machine

/-! ### The busy cycles of a command (R125) -/

theorem busyCycles_of_done {s : State} (hf : s.fsm = .done) (i : Instr) : busyCycles i s = 0 := by
  simp only [busyCycles, paddingCycles, compressions, hf, Nat.mul_zero, Nat.add_zero]

theorem busyCycles_init (d : Byte) (s : State) : busyCycles (.init d) s = 0 := by
  cases hf : s.fsm <;> simp only [busyCycles, paddingCycles, compressions, hf, Nat.mul_zero, Nat.add_zero]

theorem busyCycles_absorb_of_idle {s : State} (hf : s.fsm = .idle) (d : Byte) :
    busyCycles (.absorb d) s = if s.fill = 63 then 82 else 0 := by
  rw [busyCycles, compressions_absorb_of_idle hf]
  simp only [paddingCycles, hf]
  split <;> rfl

theorem busyCycles_finalize_of_idle {i : Instr} {s : State} (hi : isFinalize i = true) (hf : s.fsm = .idle) :
    busyCycles i s = if s.fill.toNat ≤ 55 then 85 else 167 := by
  have hpadding : paddingCycles i s = 3 := by
    cases i with
    | init _ => cases hi
    | absorb _ => cases hi
    | final _ => simp only [paddingCycles, hf]
    | finalr _ => simp only [paddingCycles, hf]
  rw [busyCycles, hpadding, compressions_finalize_of_idle hi hf]
  split <;> rfl

/-! ### Runs of busy edges -/

theorem NoReset.cons {p : PortIn} {ps : List PortIn} (h : NoReset (p :: ps)) : p.rst = false ∧ NoReset ps :=
  List.forall_mem_cons.1 h

theorem NoReset.drop {ps : List PortIn} (h : NoReset ps) (n : Nat) : NoReset (ps.drop n) :=
  fun p hp => h p (List.mem_of_mem_drop hp)

theorem noReset_quiet (n : Nat) : NoReset (List.replicate n .quiet) :=
  fun _ hp => List.eq_of_mem_replicate hp ▸ rfl

/-- The first 82 edges of a run from LOAD compress the buffer (R91 to R93). -/
theorem runEdges_load {s : State} {ps : List PortIn} (hf : s.fsm = .load) (hr : s.ret ≠ .unused) (hps : NoReset ps)
    (hlen : 82 ≤ ps.length) :
    runEdges ps s = runEdges (ps.drop 82) { compressBuffer s.ret s with fsm := s.ret.next } := by
  have hblock := runEdges_block (ps := ps.take 82) hf hr (fun p hp => hps p (List.mem_of_mem_take hp))
    (List.length_take_of_le hlen)
  conv_lhs => rw [← List.take_append_drop 82 ps]
  rw [runEdges_append, hblock, andThen_next, afterBlock, compressBuffer_eq]

theorem andThen_runEdges_nil (r : Result) : andThen r (runEdges []) = r := by
  cases r <;> rfl

theorem runEdges_singleton (p : PortIn) (s : State) : runEdges [p] s = clockEdge p s :=
  andThen_runEdges_nil _

/-- The edge of PAD2 and the 82 after it compress the last block (R90). -/
theorem runEdges_pad2 {s : State} {ps : List PortIn} (hf : s.fsm = .pad2) (hps : NoReset ps) (hlen : 83 ≤ ps.length) :
    runEdges ps s = runEdges (ps.drop 83)
      { compressBuffer .finish { s with buf := writeTrailer s.fill.toNat s.total s.buf } with fsm := .finish } := by
  cases ps with
  | nil => cases hlen
  | cons p qs =>
    obtain ⟨hp, hqs⟩ := hps.cons
    obtain ⟨-, -, -, -, hpad2, -⟩ := clockEdge_of_busy (s := s) hp
    have hret : Ret.finish ≠ .unused := nofun
    rw [List.length_cons] at hlen
    rw [runEdges, hpad2 hf, pad2Rule, andThen_next, runEdges_load rfl hret hqs (by omega), List.drop_succ_cons,
      compressBuffer_eq, compressBuffer_eq]
    rfl

/-- FINISH overwrites the digest register (R94). -/
theorem finishRule_dig (s : State) (x : Digest) : finishRule { s with dig := x } = finishRule s := rfl

/-- PAD2, the last compression and FINISH are steps 3 to 6 of a finalize and the end of its command (R63 to R65). -/
theorem runEdges_padTrailer {s : State} {ps : List PortIn} (hf : s.fsm = .pad2) (hps : NoReset ps)
    (hlen : ps.length = 84) : runEdges ps s = finishRule { padTrailer s with fsm := .finish } := by
  obtain ⟨q, hq⟩ : ∃ q, ps.drop 83 = [q] := List.length_eq_one_iff.1 (by rw [List.length_drop]; omega)
  have hqrst : q.rst = false := hps.drop 83 q (hq ▸ List.mem_singleton_self q)
  rw [runEdges_pad2 hf hps (by omega), hq, runEdges_singleton]
  generalize hu : compressBuffer .finish { s with buf := writeTrailer s.fill.toNat s.total s.buf } = u
  obtain ⟨-, -, -, -, -, hfinish⟩ := clockEdge_of_busy (s := { u with fsm := .finish }) hqrst
  rw [hfinish rfl, padTrailer, hu, ← finishRule_dig _ (digestOf u.h)]

/-- Every edge of a finalize after the one that accepts it: PAD1, with or without the overflow block, and what follows
(R65, R89). -/
theorem runEdges_finalize {s : State} {ps : List PortIn} (hf : s.fsm = .pad1) (hlt : s.fill.toNat < 64)
    (hps : NoReset ps) (hlen : ps.length = if s.fill.toNat ≤ 55 then 85 else 167) :
    runEdges ps s = andThen (finalize s) fun u => finishRule { u with fsm := .finish } := by
  cases ps with
  | nil => split at hlen <;> cases hlen
  | cons p qs =>
    obtain ⟨hp, hqs⟩ := hps.cons
    obtain ⟨-, -, -, hpad1, -, -⟩ := clockEdge_of_busy (s := s) hp
    rw [List.length_cons] at hlen
    rw [runEdges, hpad1 hf, pad1Rule, finalize, padMarker, storeByte_of_lt hlt, andThen_next, andThen_next]
    by_cases h55 : s.fill.toNat ≤ 55
    · have hnot : ¬ Config.lastFillWithoutOverflow < s.fill.toNat := Nat.not_lt.2 h55
      rw [if_pos h55] at hlen
      rw [if_neg hnot, if_neg hnot, andThen_next, andThen_next, andThen_next,
        runEdges_padTrailer rfl hqs (by omega), padTrailer, padTrailer, compressBuffer_eq]
      rfl
    · have hover : Config.lastFillWithoutOverflow < s.fill.toNat := Nat.not_le.1 h55
      have hret : Ret.pad2 ≠ .unused := nofun
      rw [if_neg h55] at hlen
      rw [if_pos hover, if_pos hover, andThen_next, andThen_next, andThen_next, runEdges_load rfl hret hqs (by omega),
        runEdges_padTrailer rfl (hqs.drop 82) (by rw [List.length_drop]; omega), compressBuffer_eq, compressBuffer_eq]
      rfl

/-! ### A command and its busy cycles (R98) -/

/-- IDLE once it has accepted a finalize (R88). -/
def acceptFinalize (kind : Bool) (s : State) : State := { s with fkind := kind, digValid := false, fsm := .pad1 }

/-- FINISH of a FINAL leaves a consumed engine (R63, R94). -/
theorem finishRule_of_final (s : State) :
    finishRule { finalized (acceptFinalize false s) with fsm := .finish } = .next (afterFinal s) := rfl

/-- FINISH of a FINALR leaves a fresh engine (R64, R94). -/
theorem finishRule_of_finalr {s : State} (hf : s.fsm = .idle) :
    finishRule { finalized (acceptFinalize true s) with fsm := .finish } = .next (afterFinalr s) := by
  have hidle : afterFinalr s = { afterFinalr s with fsm := .idle } := by rw [← hf]; rfl
  rw [hidle]
  rfl

theorem doneRule_eq_exec {s : State} (hf : s.fsm = .done) (i : Instr) : doneRule i s = exec i s := by
  cases i with
  | init d => exact (exec_init_of_ready (congrArg Fsm.ready hf) d).symm
  | absorb d => exact (exec_of_done (i := .absorb d) hf nofun).symm
  | final d => exact (exec_of_done (i := .final d) hf nofun).symm
  | finalr d => exact (exec_of_done (i := .finalr d) hf nofun).symm

/-- An ABSORB in IDLE and the busy cycles it takes. -/
theorem idleRule_absorb_then {s : State} (hi : Inv s) (hf : s.fsm = .idle) (d : Byte) {ps : List PortIn}
    (hps : NoReset ps) (hlen : ps.length = busyCycles (.absorb d) s) :
    andThen (idleRule (.absorb d) s) (runEdges ps) = exec (.absorb d) s := by
  have hlt := fill_lt_64_of_le (hi.idle_fill hf)
  have hret : Ret.idle ≠ .unused := nofun
  rw [busyCycles_absorb_of_idle hf] at hlen
  rw [exec_absorb_of_idle hf, idleRule, storeByte_of_lt hlt, andThen_next]
  by_cases hfull : s.fill = 63
  · rw [if_pos hfull] at hlen
    have hstop : ps.drop 82 = [] := List.drop_eq_nil_of_le (Nat.le_of_eq hlen)
    rw [if_pos hfull, absorbEffect_of_eq hfull, andThen_next, runEdges_load rfl hret hps (by omega), hstop, runEdges,
      compressBuffer_eq, compressBuffer_eq, hfull, hf]
    rfl
  · rw [if_neg hfull] at hlen
    rw [if_neg hfull, absorbEffect_of_lt (fill_lt_63_of_ne hlt hfull), List.length_eq_zero_iff.1 hlen]
    rfl

/-- A finalize in IDLE and the busy cycles it takes. -/
theorem idleRule_finalize_then {i : Instr} {s : State} (hfin : isFinalize i = true) (hi : Inv s) (hf : s.fsm = .idle)
    {ps : List PortIn} (hps : NoReset ps) (hlen : ps.length = busyCycles i s) :
    andThen (idleRule i s) (runEdges ps) = exec i s := by
  have hlt := fill_lt_64_of_le (hi.idle_fill hf)
  rw [busyCycles_finalize_of_idle hfin hf] at hlen
  have hrun (kind : Bool) : runEdges ps (acceptFinalize kind s) =
      finishRule { finalized (acceptFinalize kind s) with fsm := .finish } := by
    have hlt' : (acceptFinalize kind s).fill.toNat < 64 := hlt
    rw [runEdges_finalize rfl hlt' hps hlen, finalize_of_lt hlt', andThen_next]
  cases i with
  | init _ => cases hfin
  | absorb _ => cases hfin
  | final d => rw [exec_final_of_idle hf hlt, ← finishRule_of_final, ← hrun, idleRule, acceptFinalize, andThen_next]
  | finalr d =>
    rw [exec_finalr_of_idle hf hlt, ← finishRule_of_finalr hf, ← hrun, idleRule, acceptFinalize, andThen_next]

/-- A command presented to a ready block, with no reset in its busy cycles, ends in the state of its meaning. -/
theorem runEdges_command {i : Instr} {s : State} (hi : Inv s) (hready : s.Ready) {ps : List PortIn} (hps : NoReset ps)
    (hlen : ps.length = busyCycles i s) : runEdges (.present (encode i) :: ps) s = exec i s := by
  have hinstr : (PortIn.present (encode i)).instr = i := decodeOfEncode i
  rw [runEdges]
  obtain hf | hf := (fsm_ready_iff _).1 hready
  · rw [clockEdge_of_idle rfl hf, present_cmdValid, if_pos rfl, hinstr]
    cases i with
    | init d =>
      rw [busyCycles_init, List.length_eq_zero_iff] at hlen
      rw [hlen, exec_init_of_ready hready]
      rfl
    | absorb d => exact idleRule_absorb_then hi hf d hps hlen
    | final d => exact idleRule_finalize_then rfl hi hf hps hlen
    | finalr d => exact idleRule_finalize_then rfl hi hf hps hlen
  · rw [busyCycles_of_done hf, List.length_eq_zero_iff] at hlen
    rw [clockEdge_of_done rfl hf, present_cmdValid, if_pos rfl, hinstr, hlen, andThen_runEdges_nil, doneRule_eq_exec hf]

end Sys2Proof.Machine
end

section
/-!
PROOF. The host's moves (spec/40_commands.md rules R60 and R69, spec/30_encoding.md rule R58,
spec/70_reset_and_hazards.md rule R127; log entries 4 and 5): a run takes the commands among the moves in order, and
WAITs between them change nothing. A command neither reads nor writes the moves.
-/

namespace Sys2Proof.Machine

/-! ### A command and the host's moves -/

/-- An outcome with the moves `ms` in the place of the host's. -/
def withMoves (ms : List HostMove) (r : Result) : Result := andThen r fun t => .next { t with host := ms }

theorem withMoves_next (ms : List HostMove) (t : State) : withMoves ms (.next t) = .next { t with host := ms } := rfl

section
variable {s : State} {ms : List HostMove}

theorem whenReady_withMoves {effect : State → Result}
    (heffect : effect { s with host := ms } = withMoves ms (effect s)) :
    whenReady { s with host := ms } effect = withMoves ms (whenReady s effect) := by
  cases hready : s.fsm.ready with
  | true => rw [whenReady_of_ready hready, whenReady_of_ready (s := { s with host := ms }) hready, heffect]
  | false =>
    rw [whenReady_busy hready, whenReady_busy (s := { s with host := ms }) hready]
    rfl

theorem whenLegal_withMoves {effect : State → Result}
    (heffect : effect { s with host := ms } = withMoves ms (effect s)) :
    whenLegal { s with host := ms } effect = withMoves ms (whenLegal s effect) := by
  cases hready : s.fsm.ready with
  | true =>
    obtain hf | hf := (fsm_ready_iff _).1 hready
    · rw [whenLegal_idle hf, whenLegal_idle (s := { s with host := ms }) hf, heffect]
    · rw [whenLegal_done hf, whenLegal_done (s := { s with host := ms }) hf]
      rfl
  | false =>
    rw [whenLegal_busy hready, whenLegal_busy (s := { s with host := ms }) hready]
    rfl

theorem absorbEffect_withMoves (d : Byte) :
    absorbEffect d { s with host := ms } = withMoves ms (absorbEffect d s) := by
  by_cases hlt : s.fill.toNat < 64
  · by_cases hfull : s.fill = 63
    · rw [absorbEffect_of_eq hfull, absorbEffect_of_eq (s := { s with host := ms }) hfull, withMoves_next,
        compressBuffer_eq, compressBuffer_eq]
    · have hopen := fill_lt_63_of_ne hlt hfull
      rw [absorbEffect_of_lt hopen, absorbEffect_of_lt (s := { s with host := ms }) hopen, withMoves_next]
  · have hge := Nat.not_lt.1 hlt
    rw [absorbEffect_of_ge hge, absorbEffect_of_ge (s := { s with host := ms }) hge]
    rfl

theorem finalEffect_withMoves : finalEffect { s with host := ms } = withMoves ms (finalEffect s) := by
  by_cases hlt : s.fill.toNat < 64
  · rw [finalEffect_of_lt hlt, finalEffect_of_lt (s := { s with host := ms }) hlt, withMoves_next]
    rfl
  · have hge := Nat.not_lt.1 hlt
    rw [finalEffect, finalEffect, finalize_of_ge (s := { s with fkind := false }) hge,
      finalize_of_ge (s := { s with fkind := false, host := ms }) hge]
    rfl

theorem finalrEffect_withMoves : finalrEffect { s with host := ms } = withMoves ms (finalrEffect s) := by
  by_cases hlt : s.fill.toNat < 64
  · rw [finalrEffect_of_lt hlt, finalrEffect_of_lt (s := { s with host := ms }) hlt, withMoves_next]
    rfl
  · have hge := Nat.not_lt.1 hlt
    rw [finalrEffect, finalrEffect, finalize_of_ge (s := { s with fkind := true }) hge,
      finalize_of_ge (s := { s with fkind := true, host := ms }) hge]
    rfl

end

/-- A command does not depend on the host's moves. -/
theorem exec_withMoves (i : Instr) (s : State) (ms : List HostMove) :
    exec i { s with host := ms } = withMoves ms (exec i s) := by
  cases i with
  | init _ => exact whenReady_withMoves rfl
  | absorb d => exact whenLegal_withMoves (absorbEffect_withMoves d)
  | final _ => exact whenLegal_withMoves finalEffect_withMoves
  | finalr _ => exact whenLegal_withMoves finalrEffect_withMoves

/-- A command leaves the host's moves as they are. -/
theorem host_of_exec {i : Instr} {s t : State} (h : exec i s = .next t) : t.host = s.host := by
  have hmoves := exec_withMoves i s s.host
  rw [h, withMoves_next] at hmoves
  have hhost := congrArg State.host (Host.Outcome.next.inj hmoves)
  exact hhost

/-! ### One step of a ready block -/

theorem step_of_command {w : CommandWord} {ms : List HostMove} {s : State} (hready : s.Ready)
    (hhost : s.host = .command w :: ms) : step s = exec (decode w) { s with host := ms } := by
  have haccepts : (PortIn.present w).accepts s = true := accepts_of_ready rfl hready
  have hmove : s.nextMove = { s with host := ms } := by rw [State.nextMove, hhost]; rfl
  rw [step, pins_of_command hhost, if_pos haccepts, present_instr, hmove]

/-- A ready block keeps every register while nothing is on its port (R88, R95). -/
theorem clockEdge_quiet_of_ready {s : State} (hready : s.Ready) : clockEdge .quiet s = .next s := by
  obtain hf | hf := (fsm_ready_iff _).1 hready
  · rw [clockEdge_of_idle rfl hf]
    rfl
  · rw [clockEdge_of_done rfl hf]
    rfl

theorem step_of_wait {ms : List HostMove} {s : State} (hready : s.Ready) (hhost : s.host = .wait :: ms) :
    step s = .next { s with host := ms } := by
  have haccepts : ¬ PortIn.quiet.accepts s = true := by
    rw [accepts_of_ready rfl hready]
    exact Bool.false_ne_true
  have hmove : s.passEdge = { s with host := ms } := by
    rw [State.passEdge, hhost]
    simp only [State.nextMove, hhost, List.drop_succ_cons, List.drop_zero]
  rw [step, pins_of_wait hhost, if_neg haccepts, hmove, clockEdge_quiet_of_ready (s := { s with host := ms }) hready]

/-- An encoded command fits the port, so `withFetchWord` places the whole word. -/
theorem withFetchWord_encode (i : Instr) (s : State) : s.withFetchWord 16 (encode i).toNat = s.place (encode i) := by
  have hfits : (encode i).toNat % 2 ^ 16 = (encode i).toNat :=
    Nat.mod_eq_of_lt (Nat.lt_of_lt_of_le (encode i).isLt (by decide))
  rw [State.withFetchWord, hfits, BitVec.ofNat_toNat, BitVec.setWidth_eq]

/-- Settles O58: a ready block accepts the word its host presents; a placed word is the one presented. -/
theorem stepRunsDecodedCommand : Obligations.StepRunsDecodedCommand := by
  refine ⟨fun w ms s hready hhost => step_of_command hready hhost, fun i s hready => ?_⟩
  have hplaced : (s.place (encode i)).Ready := hready
  rw [withFetchWord_encode, step_of_command hplaced rfl, decodeOfEncode i]
  rfl

/-! ### Runs of moves -/

/-- The command that a move presents. -/
def HostMove.instr? : HostMove → Option Instr
  | .command w => some (decode w)
  | .wait => none
  | .reset => none

/-- The commands among the host's moves, in order. -/
def commandsOf (ms : List HostMove) : List Instr := ms.filterMap HostMove.instr?

theorem commandsOf_command (w : CommandWord) (ms : List HostMove) :
    commandsOf (.command w :: ms) = decode w :: commandsOf ms := rfl

theorem commandsOf_wait (ms : List HostMove) : commandsOf (.wait :: ms) = commandsOf ms := rfl

theorem run_succ_of_next {M : Host.Core} {s t : M.State} (h : M.step s = .next t) (k : Nat) :
    M.run (k + 1) s = M.run k t := by
  rw [Host.Core.run, h]

theorem core_run_succ {s t : State} (h : step s = .next t) (k : Nat) :
    Sys2Proof.core.run (k + 1) s = Sys2Proof.core.run k t :=
  run_succ_of_next (M := Sys2Proof.core) h k

/-- A stream from a ready state of the invariant goes on, and ends ready. -/
theorem runCommands_ready (is : List Instr) {s : State} (hi : Inv s) (hready : s.Ready) :
    ∃ t, runCommands is s = .next t ∧ Inv t ∧ t.Ready ∧ t.host = s.host := by
  induction is generalizing s with
  | nil => exact ⟨s, rfl, hi, hready, rfl⟩
  | cons i is ih =>
    obtain ⟨u, hexec, hu⟩ := exec_inv hi i
    obtain ⟨t, hrun, ht, htready, hhost⟩ := ih hu (exec_ready hready hexec)
    exact ⟨t, by rw [runCommands, hexec, andThen_next, hrun], ht, htready, hhost.trans (host_of_exec hexec)⟩

/-- A run of moves without a reset is the stream of the commands among them. -/
theorem core_run_moves (ms : List HostMove) (hreset : .reset ∉ ms) {s : State} (hi : Inv s) (hready : s.Ready) :
    Sys2Proof.core.run ms.length { s with host := ms } = withMoves [] (runCommands (commandsOf ms) s) := by
  induction ms generalizing s with
  | nil => rfl
  | cons move ms ih =>
    obtain ⟨hmove, hrest⟩ := not_or.1 (mt List.mem_cons.2 hreset)
    cases move with
    | reset => exact absurd rfl hmove
    | wait =>
      have hstep := step_of_wait (s := { s with host := .wait :: ms }) hready rfl
      rw [List.length_cons, core_run_succ hstep, commandsOf_wait, ih hrest hi hready]
    | command w =>
      obtain ⟨t, hexec, ht⟩ := exec_inv hi (decode w)
      have hstep : step { s with host := .command w :: ms } = .next { t with host := ms } := by
        rw [step_of_command (s := { s with host := .command w :: ms }) hready rfl, exec_withMoves _ s, hexec,
          withMoves_next]
      rw [List.length_cons, core_run_succ hstep, commandsOf_command, runCommands, hexec, andThen_next,
        ih hrest ht (exec_ready hready hexec)]

/-- A program without a reset, taken up by a ready block with no move waiting, runs as the stream of its commands. -/
theorem core_run_withProgram (ms : List HostMove) (hreset : .reset ∉ ms) {s : State} (hi : Inv s) (hready : s.Ready)
    (hhost : s.host = []) :
    Sys2Proof.core.run ms.length (s.withProgram ms) = runCommands (commandsOf ms) s := by
  obtain ⟨t, hrun, -, -, ht⟩ := runCommands_ready (commandsOf ms) hi hready
  have hprogram : s.withProgram ms = { s with host := ms } := by rw [State.withProgram, hhost, List.nil_append]
  have hsame : { t with host := [] } = t := by rw [← hhost, ← ht]
  rw [hprogram, core_run_moves ms hreset hi hready, hrun, withMoves_next, hsame]

/-- The clocked port, fed with moves without a reset, ends where the stream of the commands among them ends. -/
theorem runEdges_issueMoves (ms : List HostMove) (hreset : .reset ∉ ms) {s : State} (hi : Inv s) (hready : s.Ready) :
    runEdges (issueMoves ms s) s = runCommands (commandsOf ms) s := by
  induction ms generalizing s with
  | nil => rfl
  | cons move ms ih =>
    obtain ⟨hmove, hrest⟩ := not_or.1 (mt List.mem_cons.2 hreset)
    cases move with
    | reset => exact absurd rfl hmove
    | wait =>
      rw [issueMoves, runEdges, clockEdge_quiet_of_ready hready, andThen_next, commandsOf_wait, ih hrest hi hready]
    | command w =>
      obtain ⟨t, hexec, ht⟩ := exec_inv hi (decode w)
      have hcommand := runEdges_command hi hready (noReset_quiet (busyCycles (decode w) s)) List.length_replicate
      rw [encodeOfDecode w, hexec] at hcommand
      rw [issueMoves, hexec, runEdges_append, hcommand, andThen_next, commandsOf_command, runCommands, hexec,
        andThen_next, ih hrest ht (exec_ready hready hexec)]

/-! ### Programs of commands and gaps -/

theorem commandsOf_append (ms ns : List HostMove) : commandsOf (ms ++ ns) = commandsOf ms ++ commandsOf ns :=
  List.filterMap_append

theorem commandsOf_assembled (is : List Instr) : commandsOf (is.map assembled) = is := by
  induction is with
  | nil => rfl
  | cons i is ih => rw [List.map_cons, assembled, commandsOf_command, decodeOfEncode i, ih]

theorem commandsOf_replicate_wait (n : Nat) : commandsOf (List.replicate n .wait) = [] := by
  induction n with
  | zero => rfl
  | succ n ih => rw [List.replicate_succ, commandsOf_wait, ih]

theorem absorbMoves_eq (bytes : List Byte) : absorbMoves bytes = (absorbAll bytes).map assembled := by
  rw [absorbAll, List.map_map]
  rfl

/-- The commands of a program in chunks with gaps are those of the whole byte sequence (R69). -/
theorem commandsOf_chunks (chunks : List (Nat × List Byte)) :
    commandsOf (chunks.flatMap fun c => List.replicate c.1 HostMove.wait ++ absorbMoves c.2) =
      absorbAll (chunks.flatMap (·.2)) := by
  induction chunks with
  | nil => rfl
  | cons c chunks ih =>
    rw [List.flatMap_cons, List.flatMap_cons, commandsOf_append, commandsOf_append, commandsOf_replicate_wait,
      absorbMoves_eq, commandsOf_assembled, ih, absorbAll, absorbAll, absorbAll, List.map_append, List.nil_append]

theorem reset_not_mem_assembled (is : List Instr) : .reset ∉ is.map assembled := by
  simp [assembled]

theorem reset_not_mem_gap (n : Nat) (is : List Instr) : .reset ∉ List.replicate n .wait ++ is.map assembled := by
  rw [List.mem_append, not_or]
  exact ⟨fun h => (nomatch List.eq_of_mem_replicate h), reset_not_mem_assembled is⟩

/-- Settles O60: the commands among the moves of an assembled stream are the stream. -/
theorem runIsFoldOfCommands : Obligations.RunIsFoldOfCommands := by
  intro is s hi hready hhost
  obtain ⟨t, hrun, -, htready, ht⟩ := runCommands_ready is hi hready
  have hprogram := core_run_withProgram _ (reset_not_mem_assembled is) hi hready hhost
  rw [List.length_map, commandsOf_assembled, hrun] at hprogram
  exact ⟨t, hprogram, hrun, htready, ht.trans hhost⟩

/-- Settles O55: the run and the port both do the commands among the moves, and these are the same however the bytes are
grouped. -/
theorem incrementalEquivalence : Obligations.IncrementalEquivalence := by
  intro chunks gap rest s hi hready hhost moves
  have hcommands : commandsOf moves = absorbAll (chunks.flatMap (·.2)) ++ rest := by
    rw [commandsOf_append, commandsOf_append, commandsOf_chunks, commandsOf_replicate_wait, commandsOf_assembled,
      List.nil_append]
  have hreset : .reset ∉ moves := by
    rw [List.mem_append, not_or, List.mem_flatMap]
    refine ⟨?_, reset_not_mem_gap gap rest⟩
    rintro ⟨c, -, hc⟩
    exact reset_not_mem_gap c.1 (absorbAll c.2) (absorbMoves_eq c.2 ▸ hc)
  obtain ⟨t, hrun, -⟩ := runCommands_ready (commandsOf moves) hi hready
  have hprogram := core_run_withProgram moves hreset hi hready hhost
  have hport := runEdges_issueMoves moves hreset hi hready
  exact ⟨t, hcommands ▸ hrun, hprogram.trans hrun, hport.trans hrun⟩

end Sys2Proof.Machine
end

section
/-!
PROOF. The compression transform (spec/41_compression.md rules R74 to R85): the words of the schedule and the window
that hands them to the rounds, the four round groups, the gate-level forms bit by bit, and the 80 rounds of `Compress`.
-/

namespace Sys2Proof.Machine

/-! ### The schedule (R75, R76) -/

/-- A word the schedule already has after `n` extensions is the schedule's word, before and after `w[79]` alike. -/
theorem scheduleTo_getD_eq_schedule (B : Block) {n i : Nat} (hn : i < 16 + n) (hi : i < 80) :
    (scheduleTo B n).getD i 0 = (schedule B).getD i 0 := by
  rcases Nat.le_total n 64 with hle | hle
  · obtain ⟨m, hm⟩ := Nat.exists_eq_add_of_le hle
    rw [schedule, hm, scheduleTo_getD_add B n m i hn]
  · obtain ⟨m, rfl⟩ := Nat.exists_eq_add_of_le hle
    exact scheduleTo_getD_add B 64 m i hi

/-- The first 16 schedule words are the block's words (R75). -/
theorem schedule_getD_first (B : Block) {j : Nat} (hj : j < 16) :
    (schedule B).getD j 0 = be32 B[4 * j] B[4 * j + 1] B[4 * j + 2] B[4 * j + 3] := by
  rw [← scheduleTo_getD_eq_schedule B (n := 0) hj (by omega), scheduleTo, blockWords,
    List.getD_eq_getElem _ _ (by simpa)]
  simp only [List.getElem_map, List.getElem_range]
  rw [byteAt_of_lt B _ (by omega), byteAt_of_lt B _ (by omega), byteAt_of_lt B _ (by omega),
    byteAt_of_lt B _ (by omega)]

/-- The schedule's word `w[16 + n]` is the word that extension `n` appends (R76). -/
theorem schedule_getD_recurrence (B : Block) {n : Nat} (hn : n < 64) :
    (schedule B).getD (16 + n) 0 =
      rotl ((schedule B).getD (16 + n - 3) 0 ^^^ (schedule B).getD (16 + n - 8) 0 ^^^
        (schedule B).getD (16 + n - 14) 0 ^^^ (schedule B).getD (16 + n - 16) 0) 1 := by
  have hearlier (k : Nat) (hk : 0 < k) :
      (scheduleTo B n).getD (16 + n - k) 0 = (schedule B).getD (16 + n - k) 0 :=
    scheduleTo_getD_eq_schedule B (by omega) (by omega)
  rw [← scheduleTo_getD_eq_schedule B (n := n + 1) (by omega) (by omega), scheduleTo_getD_last,
    hearlier 3 (by decide), hearlier 8 (by decide), hearlier 14 (by decide), hearlier 16 (by decide)]

/-- Settles O41: the first words are the block's, and every later word is one extension's. -/
theorem scheduleRecurrence : Obligations.ScheduleRecurrence := by
  refine fun B => ⟨fun j hj => schedule_getD_first B hj, fun i hfrom hto => ?_⟩
  obtain ⟨n, rfl⟩ := Nat.exists_eq_add_of_le hfrom
  exact schedule_getD_recurrence B (by omega)

/-! ### The window (R83) -/

/-- `t` shifts of the window that LOAD fills. -/
theorem shiftWindow_iterate (B : Block) (t : Nat) : shiftWindow^[t] (windowAt B 0) = windowAt B t := by
  induction t with
  | zero => rfl
  | succ t ih => rw [Function.iterate_succ_apply', ih, shiftWindow_windowAt]

/-- The window of ROUND cycle `t` holds the schedule's words from `w[t]` on, as far as `w[79]`. -/
theorem windowAt_getElem (B : Block) {t j : Nat} (hj : j < 16) (hword : t + j < 80) :
    (windowAt B t)[j] = (schedule B).getD (t + j) 0 := by
  rw [windowAt, tabulate_getElem, scheduleTo_getD_eq_schedule B (by omega) hword]

/-- The window of cycle 0, written with the words of the whole schedule. -/
theorem windowAt_zero_eq_schedule (B : Block) : (tabulate 16 fun j => (schedule B).getD j 0) = windowAt B 0 := by
  refine (eq_tabulate fun j hj => ?_).symm
  rw [windowAt_getElem B hj (by omega), Nat.zero_add]

/-- Settles O42: `t` shifts end in the window of cycle `t`, which holds the schedule from `w[t]` on. -/
theorem windowHoldsSchedule : Obligations.WindowHoldsSchedule := by
  intro B t j hj hword
  simp only [windowAt_zero_eq_schedule, shiftWindow_iterate]
  exact windowAt_getElem B hj (by omega)

/-! ### The round groups (R77, R78, R85) -/

theorem roundGroup_of_le_19 {t : Nat} (hto : t ≤ 19) : roundGroup t = .g0 :=
  if_pos (by omega)

theorem roundGroup_of_20_to_39 {t : Nat} (hfrom : 20 ≤ t) (hto : t ≤ 39) : roundGroup t = .g1 := by
  rw [roundGroup, if_neg (by omega), if_pos (by omega)]

theorem roundGroup_of_40_to_59 {t : Nat} (hfrom : 40 ≤ t) (hto : t ≤ 59) : roundGroup t = .g2 := by
  rw [roundGroup, if_neg (by omega), if_neg (by omega), if_pos (by omega)]

theorem roundGroup_of_60_le {t : Nat} (hfrom : 60 ≤ t) : roundGroup t = .g3 := by
  rw [roundGroup, if_neg (by omega), if_neg (by omega), if_neg (by omega)]

/-- A round's mixing function and constant are those of its group. -/
theorem mix_and_roundConstant_of_group {t : Nat} {g : RoundGroup} (hg : roundGroup t = g) (b c d : Word) :
    mix t b c d = mixGroup g b c d ∧ roundConstant t = krom g := by
  rw [mix, roundConstant, hg]
  exact ⟨rfl, rfl⟩

/-- Settles O43: each range is one round group, and the group has the function and the constant. -/
theorem roundFunctions : Obligations.RoundFunctions := by
  refine fun t b c d _ => ⟨fun hto => ?_, fun hfrom hto => ?_, fun hfrom hto => ?_, fun hfrom => ?_⟩
  · exact mix_and_roundConstant_of_group (roundGroup_of_le_19 hto) b c d
  · exact mix_and_roundConstant_of_group (roundGroup_of_20_to_39 hfrom hto) b c d
  · exact mix_and_roundConstant_of_group (roundGroup_of_40_to_59 hfrom hto) b c d
  · exact mix_and_roundConstant_of_group (roundGroup_of_60_le hfrom) b c d

/-! ### The gate-level forms (R84) -/

/-- The eight rows of group 0's truth table. -/
theorem choose_truthTable : ∀ b c d : Bool, (d ^^ (b && (c ^^ d))) = (b && c || !b && d) := by decide

/-- The eight rows of group 2's truth table. -/
theorem majority_truthTable : ∀ b c d : Bool, (b && c || d && (b || c)) = (b && c || b && d || c && d) := by decide

theorem chooseGates_eq_mixGroup (x y z : Word) : chooseGates x y z = mixGroup .g0 x y z := by
  ext i hi
  simpa [chooseGates, mixGroup] using choose_truthTable x[i] y[i] z[i]

theorem majorityGates_eq_mixGroup (x y z : Word) : majorityGates x y z = mixGroup .g2 x y z := by
  ext i hi
  simpa [majorityGates, mixGroup] using majority_truthTable x[i] y[i] z[i]

/-- Settles O44: each gate-level form is the mixing function of its group. -/
theorem gateFormsAgree : Obligations.GateFormsAgree :=
  fun b c d => ⟨chooseGates_eq_mixGroup b c d, majorityGates_eq_mixGroup b c d⟩

/-! ### The rounds of `Compress` (R74, R80, R81) -/

/-- Settles O46: the trace is `roundsTo`, round by round over the working copy of the state. -/
theorem compressRunsEightyRounds : Obligations.CompressRunsEightyRounds := by
  refine fun H B => ⟨roundsTo (schedule B) (loadWorking H), ?start, fun t _ => ?next, ?accumulated⟩
  case start => exact roundsTo_zero _ _
  case next => exact roundsTo_succ _ _ t
  case accumulated => rfl

end Sys2Proof.Machine
end

section
/-!
PROOF. The clocked controller, state by state (spec/42_controller_fsm.md rules R87 to R96 and R99): the writes of
the edge each state makes, and what a command that is not accepted does, which is nothing.
-/

namespace Sys2Proof.Machine

/-! ### Commands that are not accepted (R87, R99) -/

theorem ready_false_of_busy {s : State} (h : s.busy = true) : s.fsm.ready = false :=
  Bool.not_eq_true' _ ▸ h

/-- The transaction level gives a busy block's command no effect (log entry 4). -/
theorem exec_of_busy {s : State} (h : s.fsm.ready = false) (i : Instr) : exec i s = .next s := by
  cases i with
  | init _ => exact whenReady_busy h _
  | absorb _ => exact whenLegal_busy h _
  | final _ => exact whenLegal_busy h _
  | finalr _ => exact whenLegal_busy h _

/-- Settles O19: neither level takes a command in a busy state. -/
theorem busyBlockTakesNoCommand : Obligations.BusyBlockTakesNoCommand := by
  intro i p s hbusy
  have hready := ready_false_of_busy hbusy
  exact ⟨exec_of_busy hready i, accepts_of_busy hready p⟩

/-- A ready block with no command presented keeps every register (R88, R95). -/
theorem clockEdge_of_ready_without_command {p : PortIn} {s : State} (hp : p.rst = false) (hready : s.Ready)
    (hvalid : p.cmdValid = false) : clockEdge p s = .next s := by
  obtain hf | hf := (fsm_ready_iff _).1 hready
  · rw [clockEdge_of_idle hp hf, hvalid]
    rfl
  · rw [clockEdge_of_done hp hf, hvalid]
    rfl

/-- The rule of a busy state reads no pin but `rst` (R99). -/
theorem clockEdge_eq_of_busy {p q : PortIn} {s : State} (hp : p.rst = false) (hq : q.rst = false)
    (hbusy : s.fsm.ready = false) : clockEdge p s = clockEdge q s := by
  obtain ⟨hload, hround, haccum, hpad1, hpad2, hfinish⟩ := clockEdge_of_busy (s := s) hp
  obtain ⟨hload', hround', haccum', hpad1', hpad2', hfinish'⟩ := clockEdge_of_busy (s := s) hq
  cases hf : s.fsm with
  | idle => rw [hf] at hbusy; cases hbusy
  | done => rw [hf] at hbusy; cases hbusy
  | load => rw [hload hf, hload' hf]
  | round => rw [hround hf, hround' hf]
  | accum => rw [haccum hf, haccum' hf]
  | pad1 => rw [hpad1 hf, hpad1' hf]
  | pad2 => rw [hpad2 hf, hpad2' hf]
  | finish => rw [hfinish hf, hfinish' hf]

/-- Settles O37: a ready block holds at such an edge, and a busy one reads no command pin. -/
theorem unacceptedCommandHasNoEffect : Obligations.UnacceptedCommandHasNoEffect := by
  intro p q s hp hq hpnone hqnone
  cases hready : s.fsm.ready with
  | true =>
    rw [accepts_of_ready hp hready] at hpnone
    rw [accepts_of_ready hq hready] at hqnone
    rw [clockEdge_of_ready_without_command hp hready hpnone, clockEdge_of_ready_without_command hq hready hqnone]
  | false => exact clockEdge_eq_of_busy hp hq hready

/-! ### Steps at which nothing is accepted (log entries 4 and 5) -/

theorem step_of_not_accepts {s : State} (h : s.pins.accepts s = false) : step s = clockEdge s.pins s.passEdge := by
  rw [step, if_neg (Bool.not_eq_true _ ▸ h)]

/-- Pins without a command are never accepted. -/
theorem accepts_of_not_cmdValid {p : PortIn} (h : p.cmdValid = false) (s : State) : p.accepts s = false := by
  rw [PortIn.accepts, h, Bool.false_and]

/-- A WAIT or a reset is over after one edge. -/
theorem passEdge_eq_tail {m : HostMove} {ms : List HostMove} {s : State} (hhost : s.host = m :: ms)
    (hm : ∀ w, m ≠ .command w) : s.passEdge = { s with host := ms } := by
  cases m with
  | command w => exact absurd rfl (hm w)
  | wait => simp only [State.passEdge, State.nextMove, hhost, List.drop_succ_cons, List.drop_zero]
  | reset => simp only [State.passEdge, State.nextMove, hhost, List.drop_succ_cons, List.drop_zero]

/-- Settles O59: the pins of such a step are never accepted, and `passEdge` says which moves are over. -/
theorem stepWithoutCommandIsClockEdge : Obligations.StepWithoutCommandIsClockEdge := by
  intro s
  refine ⟨fun hhost => ?_, fun ms hhost => ?_, fun ms hhost => ?_, fun w ms hhost hbusy => ?_⟩
  · have hpins := pins_of_nil hhost
    have hpass : s.passEdge = s := by simp only [State.passEdge, hhost]
    rw [step_of_not_accepts (hpins ▸ accepts_of_not_cmdValid rfl s), hpins, hpass]
  · have hpins := pins_of_wait hhost
    rw [step_of_not_accepts (hpins ▸ accepts_of_not_cmdValid rfl s), hpins, passEdge_eq_tail hhost nofun]
  · have hpins := pins_of_reset hhost
    rw [step_of_not_accepts (hpins ▸ accepts_of_not_cmdValid rfl s), hpins, passEdge_eq_tail hhost nofun]
  · rw [step_of_not_accepts (accepts_of_busy (ready_false_of_busy hbusy) _), pins_of_command hhost,
      passEdge_of_command hhost]

/-! ### IDLE and DONE (R88, R95) -/

/-- Settles O27: one clause per command of R88; the ABSORB that fills the block also dispatches it. -/
theorem idleEdge : Obligations.IdleEdge := by
  intro p s hp hf hfill
  have hedge (hvalid : p.cmdValid = true) : clockEdge p s = idleRule p.instr s := by
    rw [clockEdge_of_idle hp hf, if_pos hvalid]
  refine ⟨clockEdge_of_ready_without_command hp (congrArg Fsm.ready hf), fun hvalid hop => ?_, fun hvalid hop => ?_,
    fun hvalid hop => ?_⟩
  · rw [hedge hvalid, instr_of_init hop, idleRule, create, hf]
  · rw [hedge hvalid, instr_of_absorb hop, idleRule, storeByte_of_lt (fill_lt_64_of_le hfill), andThen_next]
    by_cases hfull : s.fill = 63
    · rw [if_pos hfull, if_pos hfull]
      exact ⟨_, rfl, rfl, Memory.read_write _ _ _, rfl⟩
    · rw [if_neg hfull, if_neg hfull]
      exact ⟨_, rfl, rfl, Memory.read_write _ _ _, by rw [hf]⟩
  · rw [hedge hvalid, idleRule_finalize s hop]

/-- Settles O34: INIT is `create`, and every other command a CmdError. -/
theorem doneEdge : Obligations.DoneEdge := by
  intro p s hp hf
  have hedge (hvalid : p.cmdValid = true) : clockEdge p s = doneRule p.instr s := by
    rw [clockEdge_of_done hp hf, if_pos hvalid]
  refine ⟨clockEdge_of_ready_without_command hp (congrArg Fsm.ready hf), fun hvalid hop => ?_, fun hvalid hop => ?_⟩
  · rw [hedge hvalid, instr_of_init hop]
    rfl
  · rw [hedge hvalid, doneRule_error s hop]
    rfl

/-! ### The padding (R89, R90) -/

/-- Settles O28: the marker is one write, and the zero fill of an overflow lies above it. -/
theorem firstPadEdge : Obligations.FirstPadEdge := by
  intro p s hp hf hfill
  obtain ⟨-, -, -, hpad1, -, -⟩ := clockEdge_of_busy (s := s) hp
  rw [hpad1 hf, pad1Rule, storeByte_of_lt (fill_lt_64_of_le hfill), andThen_next]
  by_cases h55 : s.fill ≤ 55
  · have hnot : ¬ Config.lastFillWithoutOverflow < s.fill.toNat := Nat.not_lt.2 (fill_le_55.1 h55)
    rw [if_neg hnot]
    exact ⟨_, rfl, rfl, fun hover => absurd h55 (BitVec.not_le.2 hover),
      fun _ => ⟨rfl, rfl, rfl, Memory.read_write s.buf s.fill.toNat 0x80⟩⟩
  · have hover : Config.lastFillWithoutOverflow < s.fill.toNat := Nat.not_le.1 (mt fill_le_55.2 h55)
    rw [if_pos hover]
    refine ⟨_, rfl, rfl, fun _ => ⟨rfl, rfl, rfl, fun a => ?_⟩, fun hle => absurd hle h55⟩
    have hlast : a < 64 ↔ a ≤ 63 := Nat.lt_succ_iff
    rw [read_zeroAfter, Memory.read_write]
    by_cases hmarker : a = s.fill.toNat
    · rw [if_neg (by omega), if_pos hmarker, if_pos hmarker]
    · simp only [if_neg hmarker, hlast]

/-- Byte `j` of a length, counted from the most significant (R10). -/
theorem getD_bytesBe64 (v : Length) {j : Nat} (hj : j < 8) :
    (bytesBe64 v).getD j 0 = v.extractLsb' (56 - 8 * j) 8 := by
  interval_cases j <;> rfl

/-- Settles O29: byte `a` of the trailer is byte `a - 56` from the top, so `63 - a` from the bottom. -/
theorem secondPadEdge : Obligations.SecondPadEdge := by
  intro p s hp hf hfill
  obtain ⟨-, -, -, -, hpad2, -⟩ := clockEdge_of_busy (s := s) hp
  refine ⟨_, hpad2 hf, rfl, fun a => ?_⟩
  have hread := read_writeTrailer (fill_le_56.1 hfill) s.total s.buf a
  have hbelow : s.fill.toNat ≤ a ∧ a < 56 ↔ s.fill.toNat ≤ a ∧ a ≤ 55 := by omega
  by_cases htrailer : 56 ≤ a ∧ a ≤ 63
  · have hposition : 56 - 8 * (a - 56) = 8 * (63 - a) := by omega
    rw [if_pos (by omega), getD_bytesBe64 _ (by omega), hposition] at hread
    rw [if_pos htrailer]
    exact hread
  · rw [if_neg (by omega)] at hread
    simp only [hbelow] at hread
    rw [if_neg htrailer]
    exact hread

/-! ### The pipeline (R91 to R93) and FINISH (R94) -/

/-- Settles O30: the sixteen words LOAD reads are those of the statement, by definition. -/
theorem loadEdge : Obligations.LoadEdge := by
  intro p s hp hf
  obtain ⟨hload, -⟩ := clockEdge_of_busy (s := s) hp
  exact hload hf

/-- All but the last word of a shifted window are the next words of the old one (R83). -/
theorem shiftWindow_getElem (w : Vector Word 16) {j : Nat} (hj : j < 15) : (shiftWindow w)[j] = w[j + 1] := by
  rw [shiftWindow, tabulate_getElem, dif_pos hj]

/-- The last word of a shifted window is the next word of the schedule (R76, R83). -/
theorem shiftWindow_last (w : Vector Word 16) :
    (shiftWindow w)[15] = rotl (w[13] ^^^ w[8] ^^^ w[2] ^^^ w[0]) 1 := by
  rw [shiftWindow, tabulate_getElem, dif_neg (by decide)]

/-- Settles O31: `round` and `shiftWindow` are the two halves of the rule. -/
theorem roundEdge : Obligations.RoundEdge := by
  intro p s hp hf
  obtain ⟨-, hround, -⟩ := clockEdge_of_busy (s := s) hp
  exact ⟨_, hround hf, rfl, rfl, rfl, rfl, rfl, rfl, fun _ hj => shiftWindow_getElem s.window hj,
    shiftWindow_last s.window, rfl⟩

theorem Ret.next_of_used {r : Ret} (hused : r ≠ .unused) :
    r.next = if r = .idle then .idle else if r = .pad2 then .pad2 else .finish := by
  cases r with
  | idle => rfl
  | pad2 => rfl
  | finish => rfl
  | unused => exact absurd rfl hused

/-- Settles O32: the rule for a used code of `ret`. -/
theorem accumEdge : Obligations.AccumEdge := by
  intro p s hp hf hret
  obtain ⟨-, -, haccum, -⟩ := clockEdge_of_busy (s := s) hp
  rw [haccum hf, accumRule_of_used hret, Ret.next_of_used hret]
  rfl

/-- Settles O33: the two branches of the rule, on `fkind`. -/
theorem finishEdge : Obligations.FinishEdge := by
  intro p s hp hf
  obtain ⟨-, -, -, -, -, hfinish⟩ := clockEdge_of_busy (s := s) hp
  rw [hfinish hf, finishRule]
  refine ⟨fun hkind => ?_, fun hkind => ?_⟩
  · rw [if_neg (hkind ▸ Bool.false_ne_true)]
    rfl
  · rw [if_pos hkind]
    rfl

end Sys2Proof.Machine
end

section
/-!
PROOF. The writers of the registers (spec/42_controller_fsm.md rule R96): each rule of the controller writes the
registers it names and keeps every other.
-/

namespace Sys2Proof.Machine

/-- An INIT is accepted at the edge. -/
def InitAccepted (p : PortIn) (s : State) : Prop := p.accepts s = true ∧ p.cmdOp = 0b00

/-- An ABSORB is accepted in IDLE. -/
def AbsorbAccepted (p : PortIn) (s : State) : Prop := s.fsm = .idle ∧ p.cmdValid = true ∧ p.cmdOp = 0b01

/-- A FINAL or FINALR is accepted in IDLE. -/
def FinalizeAccepted (p : PortIn) (s : State) : Prop := s.fsm = .idle ∧ p.cmdValid = true ∧ p.cmdOp.getLsbD 1 = true

/-- FINISH of a FINALR, which creates a fresh engine (R94). -/
def FinalrFinishing (s : State) : Prop := s.fsm = .finish ∧ s.fkind = true

/-- At the edge from `s` to `u` under the pins `p`, a register that changed has one of its writers there (R96). A field
left out is a register the rule keeps. -/
structure ChangedByWriter (p : PortIn) (s u : State) : Prop where
  h : u.h ≠ s.h → s.fsm = .accum ∨ FinalrFinishing s ∨ InitAccepted p s := by
    exact absurd rfl
  total : u.total ≠ s.total → AbsorbAccepted p s ∨ FinalrFinishing s ∨ InitAccepted p s := by
    exact absurd rfl
  dig : u.dig ≠ s.dig → s.fsm = .finish := by
    exact absurd rfl
  err : u.err ≠ s.err → InitAccepted p s ∨ (s.fsm = .done ∧ p.cmdValid = true ∧ p.cmdOp ≠ 0b00) := by
    exact absurd rfl
  window : u.window ≠ s.window → s.fsm = .load ∨ s.fsm = .round := by
    exact absurd rfl
  work : u.work ≠ s.work → s.fsm = .load ∨ s.fsm = .round := by
    exact absurd rfl
  t : u.t ≠ s.t → s.fsm = .load ∨ s.fsm = .round := by
    exact absurd rfl
  buf : u.buf ≠ s.buf → AbsorbAccepted p s ∨ s.fsm = .pad1 ∨ s.fsm = .pad2 := by
    exact absurd rfl
  fill : u.fill ≠ s.fill →
      AbsorbAccepted p s ∨ s.fsm = .pad1 ∨ s.fsm = .pad2 ∨ s.fsm = .load ∨ FinalrFinishing s ∨ InitAccepted p s := by
    exact absurd rfl
  ret : u.ret ≠ s.ret → (AbsorbAccepted p s ∧ s.fill = 63) ∨ s.fsm = .pad1 ∨ s.fsm = .pad2 := by
    exact absurd rfl
  fkind : u.fkind ≠ s.fkind → FinalizeAccepted p s := by
    exact absurd rfl
  digValid : u.digValid ≠ s.digValid → FinalizeAccepted p s ∨ s.fsm = .finish ∨ InitAccepted p s := by
    exact absurd rfl
  fsm : u.fsm ≠ s.fsm → s.busy = true ∨ p.accepts s = true := by
    exact absurd rfl
  host : u.host = s.host := by
    rfl

theorem busy_of_fsm {s : State} {f : Fsm} (hf : s.fsm = f) (hbusy : f.ready = false) : s.busy = true := by
  rw [State.busy, hf, hbusy]
  rfl

theorem cmdValid_of_accepts {p : PortIn} {s : State} (h : p.accepts s = true) : p.cmdValid = true :=
  (Bool.and_eq_true_iff.1 h).1

/-- Every edge without reset, rule by rule: the fields given are the registers the rule writes. -/
theorem clockEdge_changedByWriter {p : PortIn} {s : State} (hp : p.rst = false) :
    ∀ t, clockEdge p s = .next t → ChangedByWriter p s t := by
  refine clockEdge_elim (P := fun r => ∀ t, r = .next t → ChangedByWriter p s t)
    ?reset ?hold ?init ?absorb ?finalize ?error ?load ?round ?accum ?pad1 ?pad2 ?finish
  case reset =>
    intro hrst
    rw [hp] at hrst
    cases hrst
  case hold =>
    rintro - - - _ ⟨⟩
    exact {}
  case init =>
    rintro - haccepts - hop _ ⟨⟩
    have hinit : InitAccepted p s := ⟨haccepts, hop⟩
    exact {
      h := fun _ => .inr (.inr hinit)
      total := fun _ => .inr (.inr hinit)
      err := fun _ => .inl hinit
      fill := fun _ => .inr (.inr (.inr (.inr (.inr hinit))))
      digValid := fun _ => .inr (.inr hinit)
      fsm := fun _ => .inr haccepts }
  case absorb =>
    intro _ haccepts hf hop t h
    obtain ⟨-, rfl⟩ := idleRule_absorb_eq_next h
    have habsorb : AbsorbAccepted p s := ⟨hf, cmdValid_of_accepts haccepts, hop⟩
    exact {
      total := fun _ => .inl habsorb
      buf := fun _ => .inl habsorb
      fill := fun _ => .inl habsorb
      ret := fun hret => .inl ⟨habsorb, by_contra fun hfull => hret (if_neg hfull)⟩
      fsm := fun _ => .inr haccepts }
  case finalize =>
    rintro - haccepts hf hop _ ⟨⟩
    have hfinalize : FinalizeAccepted p s := ⟨hf, cmdValid_of_accepts haccepts, hop⟩
    exact {
      fkind := fun _ => hfinalize
      digValid := fun _ => .inl hfinalize
      fsm := fun _ => .inr haccepts }
  case error =>
    rintro - haccepts hf hop _ ⟨⟩
    exact { err := fun _ => .inr ⟨hf, cmdValid_of_accepts haccepts, hop⟩ }
  case load =>
    rintro - hf _ ⟨⟩
    exact {
      window := fun _ => .inl hf
      work := fun _ => .inl hf
      t := fun _ => .inl hf
      fill := fun _ => .inr (.inr (.inr (.inl hf)))
      fsm := fun _ => .inl (busy_of_fsm hf rfl) }
  case round =>
    rintro - hf _ ⟨⟩
    exact {
      window := fun _ => .inr hf
      work := fun _ => .inr hf
      t := fun _ => .inr hf
      fsm := fun _ => .inl (busy_of_fsm hf rfl) }
  case accum =>
    intro _ hf t h
    obtain ⟨-, rfl⟩ := accumRule_eq_next h
    exact {
      h := fun _ => .inl hf
      fsm := fun _ => .inl (busy_of_fsm hf rfl) }
  case pad1 =>
    intro _ hf t h
    obtain ⟨-, rfl⟩ := pad1Rule_eq_next h
    split
    · exact {
        buf := fun _ => .inr (.inl hf)
        fill := fun _ => .inr (.inl hf)
        ret := fun _ => .inr (.inl hf)
        fsm := fun _ => .inl (busy_of_fsm hf rfl) }
    · exact {
        buf := fun _ => .inr (.inl hf)
        fill := fun _ => .inr (.inl hf)
        fsm := fun _ => .inl (busy_of_fsm hf rfl) }
  case pad2 =>
    rintro - hf _ ⟨⟩
    exact {
      buf := fun _ => .inr (.inr hf)
      fill := fun _ => .inr (.inr (.inl hf))
      ret := fun _ => .inr (.inr hf)
      fsm := fun _ => .inl (busy_of_fsm hf rfl) }
  case finish =>
    intro _ hf t h
    unfold finishRule at h
    split at h <;> cases h
    · have hfinalr : FinalrFinishing s := ⟨hf, ‹s.fkind = true›⟩
      exact {
        h := fun _ => .inr (.inl hfinalr)
        total := fun _ => .inr (.inl hfinalr)
        dig := fun _ => hf
        fill := fun _ => .inr (.inr (.inr (.inr (.inl hfinalr))))
        digValid := fun _ => .inr (.inl hf)
        fsm := fun _ => .inl (busy_of_fsm hf rfl) }
    · exact {
        dig := fun _ => hf
        digValid := fun _ => .inr (.inl hf)
        fsm := fun _ => .inl (busy_of_fsm hf rfl) }

/-- Settles O35: register by register, with the three pipeline registers taken together. -/
theorem registersHold : Obligations.RegistersHold := by
  intro p s t hp h
  obtain ⟨hh, htotal, hdig, herr, hwindow, hwork, ht, hbuf, hfill, hret, hfkind, hdigValid, hfsm, hhost⟩ :=
    clockEdge_changedByWriter hp t h
  exact ⟨hh, htotal, hdig, herr, (Or.elim · hwindow (Or.elim · hwork ht)), hbuf, hfill, hret, hfkind, hdigValid, hfsm,
    hhost⟩

end Sys2Proof.Machine
end

section
/-!
PROOF. The clocked controller refines the transaction level (spec/42_controller_fsm.md rule R98,
spec/70_reset_and_hazards.md rule R125). What a command ends in is `runEdges_command`; here is what the port shows until
then: the state says how many edges it is from being ready, and no edge but the last of a finalize, FINISH, writes an
output.
-/

namespace Sys2Proof.Machine

/-! ### The edges a busy state still takes (R125) -/

/-- The edges after ACCUM until the block is ready: none, PAD2 with a last block and FINISH, or FINISH. -/
def cyclesAfterAccum : Ret → Nat
  | .idle => 0
  | .pad2 => 84
  | .finish => 1
  | .unused => 1

/-- The edges until the block is ready, reset apart. -/
def cyclesLeft (s : State) : Nat :=
  match s.fsm with
  | .idle => 0
  | .done => 0
  | .load => 82 + cyclesAfterAccum s.ret
  | .round => 81 - s.t.toNat + cyclesAfterAccum s.ret
  | .accum => 1 + cyclesAfterAccum s.ret
  | .pad1 => if s.fill.toNat ≤ 55 then 85 else 167
  | .pad2 => 84
  | .finish => 1

/-- A state with edges to go is busy. -/
theorem busy_of_cyclesLeft_pos {s : State} (h : 0 < cyclesLeft s) : s.busy = true := by
  cases hf : s.fsm
  case idle => simp [cyclesLeft, hf] at h
  case done => simp [cyclesLeft, hf] at h
  all_goals exact busy_of_fsm hf rfl

theorem cyclesLeft_of_finish {s : State} (hf : s.fsm = .finish) : cyclesLeft s = 1 := by
  simp only [cyclesLeft, hf]

section
variable {s t : State}

/-- One goal per busy state: every edge is one of the edges it had left. -/
theorem cyclesLeft_clockEdge {p : PortIn} (hp : p.rst = false) (hi : Inv s) (hbusy : s.busy = true)
    (h : clockEdge p s = .next t) : cyclesLeft s = cyclesLeft t + 1 := by
  obtain ⟨hload, hround, haccum, hpad1, hpad2, hfinish⟩ := clockEdge_of_busy (s := s) hp
  cases hf : s.fsm with
  | idle => simp [State.busy, hf, Fsm.ready] at hbusy
  | done => simp [State.busy, hf, Fsm.ready] at hbusy
  | load =>
    have hzero : (0 : BitVec 7).toNat = 0 := rfl
    rw [hload hf] at h
    cases h
    simp only [cyclesLeft, hf, hzero]
    omega
  | round =>
    have ht : s.t.toNat ≤ 79 := BitVec.le_def.1 (hi.round_t hf)
    rw [hround hf] at h
    cases h
    by_cases hlast : s.t = 79
    · have h79 : s.t.toNat = 79 := by rw [hlast]; rfl
      simp only [cyclesLeft, hf, if_pos hlast, h79]
      omega
    · have hsucc : (s.t + 1).toNat = s.t.toNat + 1 := by bv_omega
      have hlt : s.t.toNat ≠ 79 := fun h79 => hlast (BitVec.eq_of_toNat_eq h79)
      simp only [cyclesLeft, hf, if_neg hlast, hsucc]
      omega
  | accum =>
    rw [haccum hf, accumRule_of_used hi.ret_used] at h
    cases h
    cases hret : s.ret <;> simp [cyclesLeft, hf, hret, Ret.next, cyclesAfterAccum]
  | pad1 =>
    rw [hpad1 hf] at h
    obtain ⟨-, rfl⟩ := pad1Rule_eq_next h
    by_cases h55 : s.fill.toNat ≤ 55
    · simp [cyclesLeft, hf, h55, Config.lastFillWithoutOverflow, Nat.not_lt.2 h55]
    · simp [cyclesLeft, hf, h55, Config.lastFillWithoutOverflow, Nat.not_le.1 h55, cyclesAfterAccum]
  | pad2 =>
    rw [hpad2 hf] at h
    cases h
    simp [cyclesLeft, hf, cyclesAfterAccum]
  | finish =>
    rw [hfinish hf, finishRule] at h
    split at h <;> cases h <;> simp [cyclesLeft, hf]

/-! ### What the port shows meanwhile -/

/-- The digest register and both flags are the same. -/
def SameOutputs (s t : State) : Prop := t.dig = s.dig ∧ t.err = s.err ∧ t.digValid = s.digValid

/-- No edge of a busy block but that of FINISH writes an output (R96). -/
theorem sameOutputs_of_clockEdge {p : PortIn} (hp : p.rst = false) (hbusy : s.busy = true) (hf : s.fsm ≠ .finish)
    (h : clockEdge p s = .next t) : SameOutputs s t := by
  have haccepts := accepts_of_busy (ready_false_of_busy hbusy) p
  obtain ⟨hvalid, herr⟩ := clockEdge_flags t h
  refine ⟨by_contra fun hdig => hf ((clockEdge_changedByWriter hp t h).dig hdig), ?_, ?_⟩
  · simpa [errAfter, hp, haccepts] using herr
  · simpa [digValidAfter, hp, haccepts, hf] using hvalid

end

theorem SameOutputs.trans {s t u : State} (hst : SameOutputs s t) (htu : SameOutputs t u) : SameOutputs s u := by
  obtain ⟨hdig, herr, hvalid⟩ := hst
  obtain ⟨hdig', herr', hvalid'⟩ := htu
  exact ⟨hdig'.trans hdig, herr'.trans herr, hvalid'.trans hvalid⟩

/-- Fewer edges than a block has left leave it busy, with the outputs it had: the last of them is not FINISH. -/
theorem runEdges_lt_cyclesLeft {ps : List PortIn} (hps : NoReset ps) {s : State} (hi : Inv s)
    (hlt : ps.length < cyclesLeft s) : ∃ u, runEdges ps s = .next u ∧ u.busy = true ∧ SameOutputs s u := by
  induction ps generalizing s with
  | nil => exact ⟨s, rfl, busy_of_cyclesLeft_pos hlt, rfl, rfl, rfl⟩
  | cons p ps ih =>
    obtain ⟨hp, hrest⟩ := hps.cons
    rw [List.length_cons] at hlt
    have hbusy : s.busy = true := busy_of_cyclesLeft_pos (by omega)
    have hf : s.fsm ≠ .finish := fun hf => by
      rw [cyclesLeft_of_finish hf] at hlt
      omega
    obtain ⟨t, hedge, ht⟩ := clockEdgeKeepsInv p s hi
    have hleft := cyclesLeft_clockEdge hp hi hbusy hedge
    obtain ⟨u, hrun, hu, hout⟩ := ih hrest ht (by omega)
    have hfirst := sameOutputs_of_clockEdge hp hbusy hf hedge
    exact ⟨u, by rw [runEdges, hedge, andThen_next, hrun], hu, hfirst.trans hout⟩

/-- The edge that accepts a command with busy cycles leaves that many, and of the outputs a finalize clears `dig_valid`
(R88). -/
theorem clockEdge_accepts_command {i : Instr} {s : State} (hi : Inv s) (hready : s.Ready) (hpos : 0 < busyCycles i s) :
    ∃ u, clockEdge (.present (encode i)) s = .next u ∧ cyclesLeft u = busyCycles i s ∧ u.dig = s.dig ∧ u.err = s.err ∧
      u.digValid = if isFinalize i then false else s.digValid := by
  have hinstr : (PortIn.present (encode i)).instr = i := decodeOfEncode i
  have hf : s.fsm = .idle := by
    obtain hf | hf := (fsm_ready_iff _).1 hready
    · exact hf
    · exact absurd hpos (busyCycles_of_done hf i ▸ Nat.lt_irrefl 0)
  rw [clockEdge_of_idle rfl hf, present_cmdValid, if_pos rfl, hinstr]
  cases i with
  | init d => exact absurd hpos (busyCycles_init d s ▸ Nat.lt_irrefl 0)
  | absorb d =>
    rw [busyCycles_absorb_of_idle hf] at hpos ⊢
    by_cases hfull : s.fill = 63
    · rw [idleRule, storeByte_of_lt (fill_lt_64_of_le (hi.idle_fill hf)), andThen_next, if_pos hfull, if_pos hfull]
      exact ⟨_, rfl, rfl, rfl, rfl, rfl⟩
    · rw [if_neg hfull] at hpos
      cases hpos
  | final d =>
    rw [busyCycles_finalize_of_idle rfl hf]
    exact ⟨_, rfl, rfl, rfl, rfl, rfl⟩
  | finalr d =>
    rw [busyCycles_finalize_of_idle rfl hf]
    exact ⟨_, rfl, rfl, rfl, rfl, rfl⟩

/-- Settles O48: the end is `runEdges_command`, and before it the block has edges left. -/
theorem controllerRefinesCommands : Obligations.ControllerRefinesCommands := by
  intro i s ps hi hready hps hlen
  refine ⟨runEdges_command hi hready hps hlen, fun k hk => ?_⟩
  obtain ⟨t, hedge, hleft, hdig, herr, hvalid⟩ := clockEdge_accepts_command (i := i) hi hready (by omega)
  have hbefore : (ps.take k).length < cyclesLeft t := by
    rw [List.length_take_of_le (Nat.le_of_lt hk), hleft, ← hlen]
    exact hk
  obtain ⟨u, hrun, hbusy, hdig', herr', hvalid'⟩ :=
    runEdges_lt_cyclesLeft (fun p hp => hps p (List.mem_of_mem_take hp)) (inv_of_clockEdge hi hedge) hbefore
  exact ⟨u, by rw [runEdges, hedge, andThen_next, hrun], hbusy, hdig'.trans hdig, herr'.trans herr,
    hvalid'.trans hvalid⟩

/-! ### Streams -/

/-- A host that issues each command when the block is ready drives the port for the edges of the timing table (R125). -/
theorem length_issueWhenReady (is : List Instr) {s : State} (hi : Inv s) :
    (issueWhenReady is s).length = streamEdges is s := by
  induction is generalizing s with
  | nil => rfl
  | cons i is ih =>
    obtain ⟨t, hexec, ht⟩ := exec_inv hi i
    have hrest := ih ht
    rw [streamEdges] at hrest
    rw [issueWhenReady_cons, streamEdges, sumOver_cons hexec, hexec]
    simp only [List.cons_append, List.length_cons, List.length_append, List.length_replicate, hrest]
    omega

/-- Settles O49: the moves of such a host are the stream, assembled. -/
theorem controllerRefinesStreams : Obligations.ControllerRefinesStreams := by
  intro is s hi hready
  obtain ⟨t, hrun, ht, htready, -⟩ := runCommands_ready is hi hready
  have hport := runEdges_issueMoves (is.map assembled) (reset_not_mem_assembled is) hi hready
  rw [commandsOf_assembled] at hport
  exact ⟨⟨t, hrun, htready, ht⟩, hport, length_issueWhenReady is hi⟩

end Sys2Proof.Machine
end

section
/-!
PROOF. Errors, recovery and liveness (spec/60_exceptions.md rules R101 to R110): CmdError is the only error, it is raised
in DONE only, INIT and reset recover from it, and a busy block becomes ready.
-/

namespace Sys2Proof.Machine

/-! ### CmdError and the recovery from it -/

/-- Settles O16: in DONE such a command is `raiseCmdError`, which leaves the block in DONE and, done again, changes
nothing. -/
theorem cmdErrorChangesOnlyErr : Obligations.CmdErrorChangesOnlyErr :=
  fun _ s hf hi => ⟨exec_of_done hf hi, fun _ hj => exec_of_done (s := raiseCmdError s) hf hj⟩

/-- Settles O17: INIT is `create`, the edge is `hardReset`, and both write every register named. -/
theorem initRecoversFromError : Obligations.InitRecoversFromError := by
  intro d p s hf _ hp
  have hready : s.Ready := (fsm_ready_iff _).2 (.inr hf)
  exact ⟨create s, hardReset s, exec_init_of_ready hready d, rfl, rfl, rfl, rfl, rfl, rfl,
    clockEdge_of_reset s hp, rfl, rfl, rfl, rfl, rfl, rfl⟩

/-- On an engine that is not consumed no command sets `err` (R102). -/
theorem err_of_exec {i : Instr} {s t : State} (hf : s.fsm ≠ .done) (herr : s.err = false) (h : exec i s = .next t) :
    t.err = false := by
  cases i with
  | init d =>
    obtain ⟨-, heffect⟩ | ⟨-, rfl⟩ := whenReady_eq_next h
    · cases heffect
      rfl
    · exact herr
  | absorb d =>
    obtain ⟨-, -, -, -, -, -, -, -, hkept⟩ := absorbFrame d s t h
    exact (hkept hf).trans herr
  | final d => exact (err_of_exec_finalize rfl h hf).trans herr
  | finalr d => exact (err_of_exec_finalize rfl h hf).trans herr

/-- Settles O18: every command goes on from a state of the invariant, and `err` is clear before it, whatever `total`
is. -/
theorem idleCommandsNeverFail : Obligations.IdleCommandsNeverFail := by
  intro i s hi hf
  have hnotDone : s.fsm ≠ .done := by simp [hf]
  obtain ⟨t, hexec, -⟩ := exec_inv hi i
  exact ⟨t, hexec, err_of_exec hnotDone (hi.err_false hnotDone) hexec⟩

/-! ### A busy block becomes ready -/

/-- The longest way is that of a finalize with an overflow block, from PAD1 on (R125). -/
theorem cyclesLeft_le (s : State) : cyclesLeft s ≤ 167 := by
  have hafter : cyclesAfterAccum s.ret ≤ 84 := by cases s.ret <;> simp [cyclesAfterAccum]
  have hpad1 : (if s.fill.toNat ≤ 55 then 85 else 167) ≤ 167 := by split <;> decide
  unfold cyclesLeft
  split <;> omega

/-- A block with no edges left is ready: a busy one has the edge of its rule to go. -/
theorem ready_of_cyclesLeft_eq_zero {s : State} (hi : Inv s) (h : cyclesLeft s = 0) : s.Ready := by
  by_contra hnot
  have hbusy : s.busy = true := by simpa [State.busy, State.Ready] using hnot
  obtain ⟨t, hedge, -⟩ := clockEdgeKeepsInv .quiet s hi
  have hleft := cyclesLeft_clockEdge rfl hi hbusy hedge
  omega

/-- The edges a block has left end in a ready state, whatever the command port shows (R87, R105). -/
theorem runEdges_cyclesLeft {ps : List PortIn} (hps : NoReset ps) {s : State} (hi : Inv s)
    (hlen : ps.length = cyclesLeft s) : ∃ t, runEdges ps s = .next t ∧ t.Ready := by
  induction ps generalizing s with
  | nil => exact ⟨s, rfl, ready_of_cyclesLeft_eq_zero hi hlen.symm⟩
  | cons p ps ih =>
    obtain ⟨hp, hrest⟩ := hps.cons
    rw [List.length_cons] at hlen
    obtain ⟨t, hedge, ht⟩ := clockEdgeKeepsInv p s hi
    have hleft := cyclesLeft_clockEdge hp hi (busy_of_cyclesLeft_pos (by omega)) hedge
    rw [runEdges, hedge, andThen_next]
    exact ih hrest ht (by omega)

/-- Settles O52: `k` is the number of edges the state has left. -/
theorem busyBlockBecomesReady : Obligations.BusyBlockBecomesReady := by
  intro s ps hi hps hlen
  have hle := cyclesLeft_le s
  exact ⟨cyclesLeft s, hle, runEdges_cyclesLeft (fun p hp => hps p (List.mem_of_mem_take hp)) hi
    (List.length_take_of_le (hlen ▸ hle))⟩

end Sys2Proof.Machine
end

section
/-!
PROOF. Reset and hazards (spec/70_reset_and_hazards.md rules R117 to R126): what reset does next to INIT and to a command on
the port, the timing table, and the independence of the controller from the data.
-/

namespace Sys2Proof.Machine

/-! ### The controller without its data (R126) -/

/-- The registers of SameControl, with every other register as in the state after reset. -/
def State.withoutData (s : State) : State :=
  { State.reset with
    fsm := s.fsm
    fill := s.fill
    t := s.t
    ret := s.ret
    fkind := s.fkind
    digValid := s.digValid
    err := s.err }

/-- The pins with no data byte. -/
def PortIn.withoutData (p : PortIn) : PortIn := { p with cmdData := 0 }

/-- An outcome with the data of its state left out. -/
def dropData (r : Result) : Result := andThen r fun t => .next t.withoutData

theorem dropData_next (t : State) : dropData (.next t) = .next t.withoutData := rfl

theorem sameControl_iff {s s' : State} : SameControl s s' ↔ s.withoutData = s'.withoutData where
  mp h := by
    obtain ⟨hfsm, hfill, ht, hret, hfkind, hdigValid, herr⟩ := h
    rw [State.withoutData, State.withoutData, hfsm, hfill, ht, hret, hfkind, hdigValid, herr]
  mpr h := {
    fsm := (congrArg State.fsm h :)
    fill := (congrArg State.fill h :)
    t := (congrArg State.t h :)
    ret := (congrArg State.ret h :)
    fkind := (congrArg State.fkind h :)
    digValid := (congrArg State.digValid h :)
    err := (congrArg State.err h :) }

theorem SamePort.withoutData_eq {p q : PortIn} (h : SamePort p q) : p.withoutData = q.withoutData := by
  obtain ⟨hrst, hvalid, hop⟩ := h
  rw [PortIn.withoutData, PortIn.withoutData, hrst, hvalid, hop]

section
variable (s : State)

/-- A store can stop only on its index, and what follows it in a rule sees the byte stored in the buffer alone. -/
theorem dropData_storeByte_then {i : Nat} {v v' : Byte} {k k' : State → Result}
    (hk : ∀ m m', dropData (k { s with buf := m }) = dropData (k' { s.withoutData with buf := m' })) :
    dropData (andThen (storeByte i v s) k) = dropData (andThen (storeByte i v' s.withoutData) k') := by
  by_cases hi : i < 64
  · rw [storeByte_of_lt hi, storeByte_of_lt hi, andThen_next, andThen_next]
    exact hk _ _
  · rw [storeByte_of_ge (Nat.not_lt.1 hi), storeByte_of_ge (Nat.not_lt.1 hi)]
    rfl

/-- ABSORB branches on the fill-count only (R88). -/
theorem dropData_absorb (d d' : Byte) :
    dropData (idleRule (.absorb d) s) = dropData (idleRule (.absorb d') s.withoutData) := by
  have hfill : s.withoutData.fill = s.fill := rfl
  refine dropData_storeByte_then s fun m m' => ?_
  rw [hfill]
  split <;> rfl

theorem dropData_idleRule (op : BitVec 2) (d d' : Byte) :
    dropData (idleRule (decodeFields op d) s) = dropData (idleRule (decodeFields op d') s.withoutData) := by
  obtain rfl | rfl | rfl | rfl := op_cases op
  · rfl
  · exact dropData_absorb s d d'
  · rfl
  · rfl

theorem dropData_doneRule (op : BitVec 2) (d d' : Byte) :
    dropData (doneRule (decodeFields op d) s) = dropData (doneRule (decodeFields op d') s.withoutData) := by
  obtain rfl | rfl | rfl | rfl := op_cases op <;> rfl

/-- PAD1 branches on the fill-count only (R89). -/
theorem dropData_pad1Rule : dropData (pad1Rule s) = dropData (pad1Rule s.withoutData) := by
  have hfill : s.withoutData.fill = s.fill := rfl
  refine dropData_storeByte_then s fun m m' => ?_
  rw [hfill]
  split <;> rfl

/-- ACCUM branches on `ret` only (R93). -/
theorem dropData_accumRule : dropData (accumRule s) = dropData (accumRule s.withoutData) := by
  have hret : s.withoutData.ret = s.ret := rfl
  unfold accumRule
  rw [hret]
  cases s.ret <;> rfl

/-- FINISH branches on `fkind` only (R94). -/
theorem dropData_finishRule : dropData (finishRule s) = dropData (finishRule s.withoutData) := by
  have hfkind : s.withoutData.fkind = s.fkind := rfl
  rw [finishRule, finishRule, hfkind]
  cases s.fkind <;> rfl

/-- Every edge, in any state whatever, takes the controller where it takes the controller without its data. -/
theorem dropData_clockEdge (p : PortIn) :
    dropData (clockEdge p s) = dropData (clockEdge p.withoutData s.withoutData) := by
  cases hp : p.rst with
  | true =>
    rw [clockEdge_of_reset s hp, clockEdge_of_reset (p := p.withoutData) s.withoutData hp]
    rfl
  | false =>
    have hvalid : p.withoutData.cmdValid = p.cmdValid := rfl
    obtain ⟨hload, hround, haccum, hpad1, hpad2, hfinish⟩ := clockEdge_of_busy (s := s) hp
    obtain ⟨hload', hround', haccum', hpad1', hpad2', hfinish'⟩ :=
      clockEdge_of_busy (p := p.withoutData) (s := s.withoutData) hp
    cases hf : s.fsm with
    | idle =>
      rw [clockEdge_of_idle hp hf, clockEdge_of_idle (p := p.withoutData) (s := s.withoutData) hp hf, hvalid]
      cases p.cmdValid with
      | true => exact dropData_idleRule s p.cmdOp p.cmdData 0
      | false => rfl
    | done =>
      rw [clockEdge_of_done hp hf, clockEdge_of_done (p := p.withoutData) (s := s.withoutData) hp hf, hvalid]
      cases p.cmdValid with
      | true => exact dropData_doneRule s p.cmdOp p.cmdData 0
      | false => rfl
    | load => rw [hload hf, hload' hf]; rfl
    | round => rw [hround hf, hround' hf]; rfl
    | accum => rw [haccum hf, haccum' hf, dropData_accumRule]
    | pad1 => rw [hpad1 hf, hpad1' hf, dropData_pad1Rule]
    | pad2 => rw [hpad2 hf, hpad2' hf]; rfl
    | finish => rw [hfinish hf, hfinish' hf, dropData_finishRule]

end

/-- Controllers that agree, at pins that agree on everything but the data byte, agree after the edge. -/
theorem sameControl_of_clockEdge {p q : PortIn} {s s' t t' : State} (hpq : SamePort p q) (h : SameControl s s')
    (hedge : clockEdge p s = .next t) (hedge' : clockEdge q s' = .next t') : SameControl t t' := by
  rw [sameControl_iff] at h ⊢
  have hsame : dropData (clockEdge p s) = dropData (clockEdge q s') := by
    rw [dropData_clockEdge, hpq.withoutData_eq, h, ← dropData_clockEdge]
  rw [hedge, hedge', dropData_next, dropData_next] at hsame
  exact Host.Outcome.next.inj hsame

/-- Settles O51, by induction on the edges: each goes on by the invariant, and keeps the controllers alike. -/
theorem controlIndependentOfData : Obligations.ControlIndependentOfData := by
  intro ps qs s s' hi hi' h hports
  induction hports generalizing s s' with
  | nil => exact ⟨s, s', rfl, rfl, h⟩
  | @cons p q ps qs hpq _ ih =>
    obtain ⟨u, hedge, hu⟩ := clockEdgeKeepsInv p s hi
    obtain ⟨u', hedge', hu'⟩ := clockEdgeKeepsInv q s' hi'
    rw [runEdges, runEdges, hedge, hedge', andThen_next, andThen_next]
    exact ih u u' hu hu' (sameControl_of_clockEdge hpq h hedge hedge')

/-! ### The timing table (R125) -/

/-- An ABSORB is busy for its compressions only. -/
theorem busyCycles_absorb (d : Byte) (s : State) : busyCycles (.absorb d) s = 82 * compressions (.absorb d) s := by
  have hpadding : paddingCycles (.absorb d) s = 0 := by cases hf : s.fsm <;> simp only [paddingCycles, hf]
  rw [busyCycles, hpadding, Nat.zero_add]
  rfl

/-- A stream of ABSORBs takes one edge for each byte and the cycles of its compressions. -/
theorem streamEdges_absorbAll (m : List Byte) {s : State} (hi : Inv s) :
    streamEdges (absorbAll m) s = m.length + 82 * streamCompressions (absorbAll m) s := by
  induction m generalizing s with
  | nil => rfl
  | cons d m ih =>
    obtain ⟨t, hexec, ht⟩ := exec_inv hi (.absorb d)
    have hrest := ih ht
    simp only [streamEdges, streamCompressions, absorbAll] at hrest ⊢
    rw [List.map_cons, sumOver_cons hexec, sumOver_cons hexec, hrest, busyCycles_absorb, List.length_cons]
    omega

/-- After INIT a byte in 64 completes a block. -/
theorem streamEdges_init_absorbAll (d : Byte) (m : List Byte) {s : State} (hi : Inv s) (hready : s.Ready) :
    streamEdges (.init d :: absorbAll m) s = 1 + m.length + 82 * (m.length / 64) := by
  obtain ⟨hcount, -⟩ := compressionCount m (.final 0) (create s) rfl (create_inv hi) rfl rfl rfl
  have habsorbs := streamEdges_absorbAll m (create_inv hi)
  rw [hcount] at habsorbs
  rw [streamEdges, sumOver_cons (exec_init_of_ready hready d), busyCycles_init, ← streamEdges, habsorbs]
  omega

/-- Settles O50: the busy cycles command by command, and the stream from the compressions of its ABSORBs. -/
theorem timingTable : Obligations.TimingTable := by
  intro d s hi hready
  have hopen (hf : s.fsm = .idle) (h55 : s.fill ≤ 55) {i : Instr} (hfin : isFinalize i = true) :
      busyCycles i s = 85 := by
    rw [busyCycles_finalize_of_idle hfin hf, if_pos (fill_le_55.1 h55)]
  have hoverflow (hf : s.fsm = .idle) (h55 : s.fill > 55) {i : Instr} (hfin : isFinalize i = true) :
      busyCycles i s = 167 := by
    have hnot : ¬ s.fill.toNat ≤ 55 := Nat.not_le.2 (BitVec.lt_def.1 h55)
    rw [busyCycles_finalize_of_idle hfin hf, if_neg hnot]
  exact ⟨busyCycles_init d s,
    fun hf h63 => by rw [busyCycles_absorb_of_idle hf, if_neg (BitVec.ne_of_lt h63)],
    fun hf h63 => by rw [busyCycles_absorb_of_idle hf, if_pos h63],
    fun hf h55 => ⟨hopen hf h55 rfl, hopen hf h55 rfl⟩,
    fun hf h55 => ⟨hoverflow hf h55 rfl, hoverflow hf h55 rfl⟩,
    busyCycles_of_done,
    fun m => streamEdges_init_absorbAll d m hi hready⟩

/-! ### Reset, INIT and the command port (R118, R120) -/

/-- Settles O9: the edge is `hardReset` and INIT is `create`, which write the same values to the registers both write. -/
theorem resetIsCreate : Obligations.ResetIsCreate := fun _ d s s' hp hready =>
  ⟨hardReset s, create s', clockEdge_of_reset s hp, exec_init_of_ready hready d, rfl, rfl, rfl, rfl, rfl, rfl⟩

/-- Settles O10: reset masks `cmd_ready`, and the state after it is ready. -/
theorem resetAcceptsNothing : Obligations.ResetAcceptsNothing := by
  intro p s hp
  have hready : s.cmdReady p.rst = false := by rw [State.cmdReady, hp, Bool.not_true, Bool.false_and]
  have haccepts : p.accepts s = false := by rw [PortIn.accepts, hready, Bool.and_false]
  have hedge := clockEdge_of_reset s hp
  have hbare : clockEdge .resetting s = .next (hardReset s) := clockEdge_of_reset s rfl
  exact ⟨hready, haccepts, hedge.trans hbare.symm, hardReset s, hedge,
    fun q hq hvalid => (accepts_of_ready hq rfl).trans hvalid⟩

end Sys2Proof.Machine
end
